-- ==== Sys2Proof/Word.lean ====
section
/-! DEFINITION. The two value widths of the block: a byte of the table and of DMEM, and a 64-bit port word. -/

namespace Sys2Proof

/-- A byte: an entry of the table (R24) or a byte of DMEM (R40). Bit 0 is the least significant (R5). -/
abbrev Byte := BitVec 8

/-- A 64-bit port value: the operand port A and the result port Y (R4, R27, R28). -/
abbrev PortWord := BitVec 64

end Sys2Proof
end

