-- ==== Sys2Proof/Config.lean ====
section
/-! DEFINITION. The block's parameters (R4) and the free values the spec leaves open (R162). -/

namespace Sys2Proof

/-- The implementation parameters of R4. The spec leaves both OPEN, so a machine carries them (log entry 1) and a
statement about every state is a statement about every value of them. -/
structure Config where
  /-- `ADDR_WIDTH`: width in bits of SRC, DST and a DMEM address. -/
  addrWidth : Nat
  /-- `BITCOUNT_WIDTH`: width in bits of NBITS. -/
  bitcountWidth : Nat
  deriving DecidableEq, Repr

/-- Each parameter is an integer ≥ 1 (R4). -/
abbrev Config.wf (cfg : Config) : Prop := 1 ≤ cfg.addrWidth ∧ 1 ≤ cfg.bitcountWidth

/-- The number of DMEM addresses, `2^ADDR_WIDTH` (R40). -/
abbrev Config.dmemSize (cfg : Config) : Nat := 2 ^ cfg.addrWidth

/-- The parameters `State.reset` is written with. DESIGN CHOICE (log entry 1, unsafe for a claim about `State.reset`
alone): the spec gives no values; these are the ones its small programs use (95_test_vectors.md section 4). -/
def Config.launch : Config := { addrWidth := 16, bitcountWidth := 16 }

/-- The free bytes of R162: the k-th byte drawn in a run. It has no body, so nothing can be proved of its value
(log entry 7). -/
opaque Config.freeByte : Nat → Byte

end Sys2Proof
end

