-- ==== Sys2Proof/Syntax.lean ====
section
/-! DEFINITION. The nine commands (R63), with the operands each one reads (R29). -/

namespace Sys2Proof

/-- One constructor per row of the opcode table. A fixed-width command carries the whole port value A, of which its
meaning reads the low N bits (R66); REFLECT.BITS carries its count and its two addresses, read as unsigned naturals
(R67). The fields a command ignores are not operands (R29). -/
inductive Instr where
  | reflectU8 (a : PortWord)
  | reflectU16 (a : PortWord)
  | reflectU32 (a : PortWord)
  | reflectU64 (a : PortWord)
  | reflectS8 (a : PortWord)
  | reflectS16 (a : PortWord)
  | reflectS32 (a : PortWord)
  | reflectS64 (a : PortWord)
  | reflectBits (nbits src dst : Nat)
  deriving DecidableEq, Repr

end Sys2Proof
end

