-- ==== Sys2Proof/WellFormed.lean ====
section
/-! DEFINITION. Which instructions the command port can carry: the range checks of R60 and R67. -/

namespace Sys2Proof

/-- NBITS fits its port: `0 ≤ n ≤ 2^BITCOUNT_WIDTH − 1` (R67). -/
abbrev Config.fitsCount (cfg : Config) (n : Nat) : Prop := n < 2 ^ cfg.bitcountWidth

/-- An address fits its port: it is one of the addresses 0 to `2^ADDR_WIDTH − 1` (R40, R60). -/
abbrev Config.fitsAddr (cfg : Config) (a : Nat) : Prop := a < 2 ^ cfg.addrWidth

/-- An instruction is well formed when every operand fits its port. A is 64 bits wide by its type. -/
def Instr.wellFormed (cfg : Config) : Instr → Bool
  | .reflectU8 _ => true
  | .reflectU16 _ => true
  | .reflectU32 _ => true
  | .reflectU64 _ => true
  | .reflectS8 _ => true
  | .reflectS16 _ => true
  | .reflectS32 _ => true
  | .reflectS64 _ => true
  | .reflectBits n src dst => decide (cfg.fitsCount n ∧ cfg.fitsAddr src ∧ cfg.fitsAddr dst)

end Sys2Proof
end

