-- ==== Sys2Proof/Decode.lean ====
section
/-! DEFINITION. The command port's five fields (R27, R60), the decoder (R61 to R67), the encoder (R63, R70), and a
transaction written as one number. -/

namespace Sys2Proof

/-- One transaction on the command port (R27, R60). NBITS, SRC and DST are as wide as the parameters say; the number
in each is what the host drives, and the block sees its low bits (`decode`). -/
structure Command where
  op : BitVec 4
  a : PortWord
  nbits : Nat
  src : Nat
  dst : Nat
  deriving DecidableEq, Repr

/-- Why a command is no instruction: its OP value is one of the reserved 0x9 to 0xF (R64). -/
inductive DecodeError where
  | reservedOp (op : BitVec 4)
  deriving DecidableEq, Repr

/-- OP[3], the kind K (R61): 0 fixed-width reflect, 1 buffer reflect. -/
def opKind (op : BitVec 4) : BitVec 1 := op.extractLsb' 3 1

/-- OP[2], the signedness S (R61). -/
def opSign (op : BitVec 4) : BitVec 1 := op.extractLsb' 2 1

/-- OP[1:0], the width code W (R61). -/
def opWidthCode (op : BitVec 4) : BitVec 2 := op.extractLsb' 0 2

/-- The operand width of a fixed-width OP, `N = 8 · 2^W` (R62). -/
def opWidth (op : BitVec 4) : Nat := 8 * 2 ^ (opWidthCode op).toNat

/-- The decoder, from OP alone (R63). Reserved values are rejected by name and read no other field (R64). The NBITS,
SRC and DST ports have `BITCOUNT_WIDTH` and `ADDR_WIDTH` wires, so their values are the low bits (R60, log entry 3). -/
def decode (cfg : Config) (c : Command) : Except DecodeError Instr :=
  match c.op.toNat with
  | 0x0 => .ok (.reflectU8 c.a)
  | 0x1 => .ok (.reflectU16 c.a)
  | 0x2 => .ok (.reflectU32 c.a)
  | 0x3 => .ok (.reflectU64 c.a)
  | 0x4 => .ok (.reflectS8 c.a)
  | 0x5 => .ok (.reflectS16 c.a)
  | 0x6 => .ok (.reflectS32 c.a)
  | 0x7 => .ok (.reflectS64 c.a)
  | 0x8 => .ok (.reflectBits (c.nbits % 2 ^ cfg.bitcountWidth) (c.src % 2 ^ cfg.addrWidth) (c.dst % 2 ^ cfg.addrWidth))
  | _ => .error (.reservedOp c.op)

/-- A fixed-width command record `(OP, A, -, -, -)` (R70). The ignored fields, written `-` there, are 0 here. -/
def fixedRecord (op : BitVec 4) (a : PortWord) : Command := { op := op, a := a, nbits := 0, src := 0, dst := 0 }

/-- The encoder: the command record of each instruction (R63, R70). -/
def encode : Instr → Command
  | .reflectU8 a => fixedRecord 0x0 a
  | .reflectU16 a => fixedRecord 0x1 a
  | .reflectU32 a => fixedRecord 0x2 a
  | .reflectU64 a => fixedRecord 0x3 a
  | .reflectS8 a => fixedRecord 0x4 a
  | .reflectS16 a => fixedRecord 0x5 a
  | .reflectS32 a => fixedRecord 0x6 a
  | .reflectS64 a => fixedRecord 0x7 a
  | .reflectBits n src dst => { op := 0x8, a := 0, nbits := n, src := src, dst := dst }

/-- A transaction's fields read from one number, lowest first in the order of R60: OP, A, NBITS, SRC, DST.
DESIGN CHOICE (log entry 2): the spec numbers the bits of each field, and of the opcode table's OP, but lays no two
fields side by side. -/
def commandOfBits (cfg : Config) (w : Nat) : Command :=
  { op := BitVec.ofNat 4 w
    a := BitVec.ofNat 64 (w / 2 ^ 4)
    nbits := w / 2 ^ 68 % 2 ^ cfg.bitcountWidth
    src := w / 2 ^ (68 + cfg.bitcountWidth) % 2 ^ cfg.addrWidth
    dst := w / 2 ^ (68 + cfg.bitcountWidth + cfg.addrWidth) % 2 ^ cfg.addrWidth }

/-- The same number from the fields (log entry 2). -/
def commandToBits (cfg : Config) (c : Command) : Nat :=
  c.op.toNat + 2 ^ 4 * (c.a.toNat + 2 ^ 64 * (c.nbits % 2 ^ cfg.bitcountWidth
    + 2 ^ cfg.bitcountWidth * (c.src % 2 ^ cfg.addrWidth + 2 ^ cfg.addrWidth * (c.dst % 2 ^ cfg.addrWidth))))

/-- The instruction a transaction written as one number carries. -/
def decodeWord (cfg : Config) (w : Nat) : Except DecodeError Instr := decode cfg (commandOfBits cfg w)

/-- The number of an instruction's transaction. -/
def encodeWord (cfg : Config) (i : Instr) : Nat := commandToBits cfg (encode i)

/-- The instruction of an opcode-table word: bits above `nbits` are 0, the parameters are those of `State.reset`. -/
def decodeTableWord (nbits w : Nat) : Option Instr :=
  match decodeWord Config.launch (w % 2 ^ nbits) with
  | .ok i => some i
  | .error _ => none

end Sys2Proof
end

