-- ==== Sys2Proof/Machine/State.lean ====
section
/-! DEFINITION. The state of the block and of the host around it (R20, R30, R40, R171), its stops, and the state just
after reset (R30, R164). -/

namespace Sys2Proof.Machine

/-- DMEM (R40): the bytes that hold a value, by strictly rising address. An unlisted address holds no value (R42:
"A byte that neither the host nor a command has written is not readable. A model gives it no value."). -/
abbrev Memory := List Host.Cell

/-- The canonical form: addresses strictly rising. No entry can equal what an unlisted address reads as, since that
is no value at all (log entry 5). -/
abbrev Memory.wf (m : Memory) : Prop := m.Pairwise (fun c d => c.1 < d.1)

/-- A run of addresses `[base, base + size)` that the host admits. A list of them is one of the predicates of R42
(log entry 6). -/
structure Region where
  base : Nat
  size : Nat
  deriving DecidableEq, Repr

/-- The three fault causes of the block (R140). They are no stop of the model: see `raiseFault`. -/
inductive FaultCode where
  | illegalOp
  | bufferBounds
  | bufferOverlap
  deriving DecidableEq, Repr

/-- The three kinds of response (R28). Only `value` drives port Y (D25). -/
inductive Response where
  | value (y : PortWord)
  | done
  | fault (code : BitVec 3)
  deriving DecidableEq, Repr

/-- One entry of the DMEM event record (R124). -/
inductive Access where
  /-- `R(addr)`: a command read one byte. -/
  | read (addr : Nat)
  /-- `W(addr)`: a command wrote one byte. -/
  | write (addr : Nat)
  /-- A reset cut a REFLECT.BITS command off: which accesses to its regions it had made is not known (log entry 13). -/
  | cut (src dst len : Nat)
  deriving DecidableEq, Repr

/-- What the host does apart from issuing commands and resetting (R171): STATUS and DMEM. -/
inductive HostMove where
  /-- `status?` (R72). -/
  | statusRead
  | dmemRead (addr : Nat)
  | dmemWrite (addr : Nat) (v : Byte)
  deriving DecidableEq, Repr

/-- What a host move gave back (R171). A DMEM byte that holds no value reads as `none` (R42, log entry 16). -/
inductive HostRead where
  | status (v : BitVec 8)
  | byte (addr : Nat) (v : Option Byte)
  deriving DecidableEq, Repr

/-- One action of the host (R171). -/
inductive HostAction where
  /-- A command with the predicates of R42. It waits until no command is in flight (R52). -/
  | issue (cmd : Command) (readable writable : List Region)
  /-- A move between commands. -/
  | move (m : HostMove)
  /-- A move made while the command in flight, if there is one, is still unanswered. -/
  | meanwhile (m : HostMove)
  /-- Assert and release reset with no command in flight: it waits for the response of one that is (R160). -/
  | reset
  /-- Assert and release reset while the command in flight, if there is one, is still unanswered (R160, R162, log entry
  10). -/
  | resetMeanwhile
  deriving DecidableEq, Repr

/-- Why the model stops. No command of the block stops it: a block fault is a NEXT state with a `Fault` response. -/
inductive Fault where
  /-- Raised by a host move that names an address outside DMEM, which R40 says does not exist. Safe. -/
  | noSuchAddress (addr : Nat)
  /-- Raised by a host move into a region of the REFLECT.BITS command in flight: R56 gives the host no such move and
  puts the run outside the spec. Safe. -/
  | hostDutyBroken (addr : Nat)
  deriving DecidableEq, Repr

/-- Why an instruction has no meaning. -/
inductive Refusal where
  /-- Raised only by an arm of `exec` for an instruction that is not modelled; there is none. Safe. -/
  | notModelled (mnemonic : String)
  deriving DecidableEq, Repr

/-- The whole machine: the block's own state is `status` and whether a command is in flight (`port`); the rest
belongs to the host or records what an observer has seen. -/
structure State where
  /-- ADDR_WIDTH and BITCOUNT_WIDTH (R4). -/
  cfg : Config
  /-- STATUS (R25). -/
  status : BitVec 8
  /-- DMEM (R40), owned by the host. -/
  dmem : Memory
  /-- The command in flight, if any (R27, R31). -/
  port : Option Command
  /-- Where the host admits reads for the command in flight (R42). -/
  readable : List Region
  /-- Where the host admits writes for the command in flight (R42). -/
  writable : List Region
  /-- Every response delivered, oldest first (R28, R172). -/
  responses : List Response
  /-- What the host's reads gave back, oldest first (R26, R171). -/
  reads : List HostRead
  /-- The host's coming actions, the next one first (R171; the model's own field, log entry 4). -/
  inbox : List HostAction
  /-- The DMEM accesses of commands, oldest first (R124; the model's own field, log entry 12). -/
  events : List Access
  /-- How many free bytes have been drawn (R162; the model's own field, log entry 7). -/
  draws : Nat
  /-- How many commands a reset has left without a response (R160, R172; the model's own field, log entry 23). -/
  abandoned : Nat
  deriving DecidableEq, Repr

/-- The machine just after reset (R30, R164), for any parameters, DMEM contents and coming host actions: STATUS is
0x00, no command is in flight, DMEM is what it was. -/
def State.afterReset (cfg : Config) (dmem : Memory) (inbox : List HostAction) : State :=
  { cfg := cfg
    status := 0x00
    dmem := dmem
    port := none
    readable := []
    writable := []
    responses := []
    reads := []
    inbox := inbox
    events := []
    draws := 0
    abandoned := 0 }

/-- The machine right after reset with nothing placed: no byte of DMEM written, nothing to do. -/
def State.reset : State := State.afterReset Config.launch [] []

end Sys2Proof.Machine
end

