-- ==== Sys2Proof/Machine/Flags.lean ====
section
/-! DEFINITION. The fields of STATUS (R25). The block has no flags: no operation sets a status bit by computing (R23),
so there is no flag computation. -/

namespace Sys2Proof.Machine

/-- The 3-bit code of a fault cause (R140). Codes 0 and 4 to 7 are never produced. -/
def faultCodeBits : FaultCode → BitVec 3
  | .illegalOp => 1
  | .bufferBounds => 2
  | .bufferOverlap => 3

/-- STATUS[0], FAULTED (R25). -/
def faulted (s : State) : Bool := s.status.getLsbD 0

/-- STATUS[3:1], FCODE (R25). -/
def fcode (s : State) : BitVec 3 := s.status.extractLsb' 1 3

/-- What the status port shows (R26): bits [7:4] are hardwired 0 (R25). -/
def statusPort (s : State) : BitVec 8 := s.status &&& 0x0F

/-- STATUS as fault entry leaves it (R145): FAULTED 1, FCODE the code, bits [7:4] zero. -/
def faultStatus (code : FaultCode) : BitVec 8 := (0#4 ++ faultCodeBits code) ++ 1#1

end Sys2Proof.Machine
end

