-- ==== Sys2Proof/Machine/Operands.lean ====
section
/-! DEFINITION. The primitives of R6, operand assembly (R66, R67), and the quantities of R110. -/

namespace Sys2Proof.Machine

/-- `rev_N(v)`: bit i of the result is bit `N−1−i` of v (R6). -/
def rev {N : Nat} (v : BitVec N) : BitVec N := v.reverse

/-- `zext_M(v)` (R6), for M ≥ N. -/
def zext {N : Nat} (M : Nat) (v : BitVec N) : BitVec M := v.setWidth M

/-- `sext_M(v)` (R6). No rule applies it; it is here to state that no result is sign-extended (R66). -/
def sext {N : Nat} (M : Nat) (v : BitVec N) : BitVec M := v.signExtend M

/-- `signed_N(v)`: the two's-complement reading of a pattern (R7). No rule computes with it. -/
def signedReading {N : Nat} (v : BitVec N) : Int := if v.getMsbD 0 then (v.toNat : Int) - 2 ^ N else v.toNat

/-- The operand `x = A[N−1:0]` of a fixed-width command (R66). -/
def operand (N : Nat) (a : PortWord) : BitVec N := a.setWidth N

/-- `ceil8(n) = (n + 7) div 8` (R6): L of R110. -/
def ceil8 (n : Nat) : Nat := (n + 7) / 8

/-- m of R110: the number of complete bytes. -/
def completeBytes (n : Nat) : Nat := n / 8

/-- r of R110: the number of remainder bits. -/
def remainderBits (n : Nat) : Nat := n % 8

/-- The count and the two addresses of a buffer command; no other command has any (R29, R40). -/
def bufferOperands : Instr → Option (Nat × Nat × Nat)
  | .reflectU8 _ => none
  | .reflectU16 _ => none
  | .reflectU32 _ => none
  | .reflectU64 _ => none
  | .reflectS8 _ => none
  | .reflectS16 _ => none
  | .reflectS32 _ => none
  | .reflectS64 _ => none
  | .reflectBits n src dst => some (n, src, dst)

/-- Address a lies in the `len` bytes from `base` on. -/
def inSpan (base len a : Nat) : Bool := base ≤ a && a < base + len

end Sys2Proof.Machine
end

