-- ==== Sys2Proof/Machine/Ops.lean ====
section
/-! DEFINITION. The shared operations: DMEM bytes, admission (R42), the response (R28), fault entry (R145), the FAULTED
state (R146), reset (R161) and the free bytes of an interrupted command (R162). -/

namespace Sys2Proof.Machine

/-- The three outcomes of a step. -/
abbrev Result := Host.Outcome State Fault Refusal

/-- The byte at an address, if it holds one (R42, R48). -/
def readByte : Memory → Nat → Option Byte
  | [], _ => none
  | c :: m, a => if c.1 = a then some c.2 else readByte m a

/-- Set the byte at an address (R42), keeping addresses rising. -/
def writeByte : Memory → Nat → Byte → Memory
  | [], a, v => [(a, v)]
  | c :: m, a, v =>
    if a < c.1 then (a, v) :: c :: m
    else if a = c.1 then (a, v) :: m
    else c :: writeByte m a v

/-- The host's list of regions admits an address. -/
def admits (rs : List Region) (a : Nat) : Bool := rs.any fun r => inSpan r.base r.size a

/-- `readable(a)`: a holds a byte and the host admits reads there (R42). -/
def readableAt (s : State) (a : Nat) : Bool := (readByte s.dmem a).isSome && admits s.readable a

/-- `writable(a)`: the host admits a write there (R42). -/
def writableAt (s : State) (a : Nat) : Bool := admits s.writable a

/-- The state once the command in flight has its one response (R28): the command is then complete (R168). -/
def answered (r : Response) (s : State) : State := { s with port := none, responses := s.responses ++ [r] }

/-- The state with STATUS set, as only fault entry does (R26). -/
def withStatus (v : BitVec 8) (s : State) : State := { s with status := v }

/-- The state with DMEM as a command left it, and the command's accesses recorded (R124). -/
def withBuffer (dmem : Memory) (accesses : List Access) (s : State) : State :=
  { s with dmem := dmem, events := s.events ++ accesses }

/-- The state once the host's next action is taken. -/
def withInbox (rest : List HostAction) (s : State) : State := { s with inbox := rest }

/-- Deliver the one response of the command in flight (R28). -/
def respond (r : Response) (s : State) : Result := .next (answered r s)

/-- Fault entry (R145): STATUS records the code, DMEM is not accessed, the command is answered `Fault(code)`. There is
no vector, no saved pc and no mode. -/
def raiseFault (code : FaultCode) (s : State) : Result :=
  respond (.fault (faultCodeBits code)) (withStatus (faultStatus code) s)

/-- The FAULTED state (R146): while FAULTED = 1 a command is answered with the stored code and does nothing else.
It comes before every other fault (R144). -/
def unlessFaulted (s : State) (run : State → Result) : Result :=
  if faulted s then respond (.fault (fcode s)) s else run s

/-- A command with a reserved OP (R64, R141). -/
def answerIllegalOp (s : State) : Result := unlessFaulted s (raiseFault .illegalOp)

/-- 1 with a command in flight, 0 without (R31): how many commands still wait for their response. -/
def inFlightCount (s : State) : Nat := if s.port.isSome then 1 else 0

/-- Reset (R160, R161): STATUS becomes 0x00 and the command in flight, if there is one, is abandoned. It is the only way
out of the FAULTED state (R147); the block has no return from a fault. -/
def resetBlock (s : State) : State :=
  { s with status := 0x00, port := none, abandoned := s.abandoned + inFlightCount s }

/-- Draw the next free byte into an address (R162). -/
def drawByte (s : State) (a : Nat) : State :=
  { s with dmem := writeByte s.dmem a (Config.freeByte s.draws), draws := s.draws + 1 }

/-- Draw every byte of `[dst, dst + len)` freely (R162). -/
def drawSpan (dst len : Nat) (s : State) : State := (List.range len).foldl (fun t k => drawByte t (dst + k)) s

end Sys2Proof.Machine
end

