-- ==== Sys2Proof/Machine/Table.lean ====
section
/-! DEFINITION. The table `bit_reversal_lut` (R24, R80): a ROM, so a constant and no field of State (R20). -/

namespace Sys2Proof.Machine

/-- One entry as the source builds it (R80): for i in 0 .. 7, if `b[i] = 1` then `t[7−i] <- 1`, from t = 0. -/
def tableEntry (b : Byte) : Byte :=
  (List.range 8).foldl (fun t i => if b.getLsbD i then t ||| BitVec.twoPow 8 (7 - i) else t) 0

/-- The 256 entries in index order (R24, R80). -/
def table : List Byte := (List.range 256).map fun b => tableEntry (BitVec.ofNat 8 b)

/-- `T[b]` (R6): a read of entry b of the ROM. Every 8-bit index has an entry (R85). -/
def tableRead (b : Byte) : Byte := table.getD b.toNat 0

/-- Byte p of an N-bit value, numbered from the most significant: `x[N−1−8p : N−8−8p]` (R91). -/
def byteFromTop {N : Nat} (x : BitVec N) (p : Nat) : Byte := x.extractLsb' (N - 8 - 8 * p) 8

/-- The source's table-based algorithm for a width of `nb` bytes (R91): byte j of the result, from the top, is
`T` of operand byte `nb − 1 − j`. -/
def tableReflect (nb : Nat) (x : BitVec (8 * nb)) : BitVec (8 * nb) :=
  (List.range nb).foldl
    (fun w j => w ||| (zext (8 * nb) (tableRead (byteFromTop x (nb - 1 - j))) <<< (8 * nb - 8 - 8 * j))) 0

end Sys2Proof.Machine
end

