-- ==== Sys2Proof/Machine/ArbitraryLength.lean ====
section
/-! DEFINITION. The buffer reflect REFLECT.BITS (R110 to R125), step by step as R115 writes it. -/

namespace Sys2Proof.Machine

/-- What a REFLECT.BITS command has done so far: DMEM, and its accesses in order (R124). -/
structure BitsRun where
  dmem : Memory
  events : List Access
  deriving DecidableEq, Repr

/-- `MemRead(a, 1)` (R42): admitted if readable(a), or if the same command has already written a. -/
def memRead (s : State) (c : BitsRun) (a : Nat) : Option (Byte × BitsRun) :=
  if readableAt s a || c.events.contains (.write a) then
    (readByte c.dmem a).map fun v => (v, { c with events := c.events ++ [.read a] })
  else none

/-- `MemWrite(a, 1, v)` (R42): admitted if writable(a). -/
def memWrite (s : State) (c : BitsRun) (a : Nat) (v : Byte) : Option BitsRun :=
  if writableAt s a then some { dmem := writeByte c.dmem a v, events := c.events ++ [.write a] } else none

/-- One complete byte (R112): read In[k], write `Out[k] <- T[In[k]]`. -/
def reflectByte (s : State) (src dst : Nat) (c : BitsRun) (k : Nat) : Option BitsRun :=
  (memRead s c (src + k)).bind fun p => memWrite s p.2 (dst + k) (tableRead p.1)

/-- Step 1 (R112): the complete bytes in ascending order. -/
def bitsStep1 (s : State) (src dst m : Nat) (c : BitsRun) : Option BitsRun :=
  (List.range m).foldlM (reflectByte s src dst) c

/-- The partial byte p of R113: for i in 0 .. r−1, if `b[i] = 1` then `p[r−1−i] <- 1`, from p = 0. -/
def partialByte (r : Nat) (b : Byte) : Byte :=
  (List.range r).foldl (fun p i => if b.getLsbD i then p ||| BitVec.twoPow 8 (r - 1 - i) else p) 0

/-- Step 2 (R113): the partial byte, if r > 0. -/
def bitsStep2 (s : State) (src dst m r : Nat) (c : BitsRun) : Option BitsRun :=
  if r = 0 then some c
  else (memRead s c (src + m)).bind fun p => memWrite s p.2 (dst + m) (partialByte r p.1)

/-- One exchange of step 3 (R114, R124): two reads, then two writes. -/
def exchangeBytes (s : State) (dst L : Nat) (c : BitsRun) (i : Nat) : Option BitsRun :=
  (memRead s c (dst + i)).bind fun lo =>
    (memRead s lo.2 (dst + (L - 1 - i))).bind fun hi =>
      (memWrite s hi.2 (dst + i) hi.1).bind fun c' => memWrite s c' (dst + (L - 1 - i)) lo.1

/-- Step 3 (R114): reverse the order of the L output bytes in place. -/
def bitsStep3 (s : State) (dst L : Nat) (c : BitsRun) : Option BitsRun :=
  (List.range (L / 2)).foldlM (exchangeBytes s dst L) c

/-- Steps 1 to 3 (R115). An access that is not admitted ends them (R42); after the checks of R122 there is none
(log entry 14). -/
def bitsRun (n src dst : Nat) (s : State) : Option BitsRun :=
  (bitsStep1 s src dst (completeBytes n) { dmem := s.dmem, events := [] }).bind fun c1 =>
    (bitsStep2 s src dst (completeBytes n) (remainderBits n) c1).bind fun c2 => bitsStep3 s dst (ceil8 n) c2

/-- Check 1 of R122: both spans lie in DMEM, without wrapping (R50). -/
def spansInDmem (n src dst : Nat) (s : State) : Bool :=
  src + ceil8 n ≤ s.cfg.dmemSize && dst + ceil8 n ≤ s.cfg.dmemSize

/-- Check 2 of R122: every input byte is readable. -/
def inputReadable (n src : Nat) (s : State) : Bool := (List.range (ceil8 n)).all fun k => readableAt s (src + k)

/-- Check 3 of R122: every output byte is writable. -/
def outputWritable (n dst : Nat) (s : State) : Bool := (List.range (ceil8 n)).all fun k => writableAt s (dst + k)

/-- What check 4 of R122 forbids, as R115 writes it: the spans overlap and are not identical (R143). -/
def spansOverlap (n src dst : Nat) : Bool :=
  0 < ceil8 n && src ≠ dst && src < dst + ceil8 n && dst < src + ceil8 n

/-- The checks of R122 in their order, all before the first access: the fault to raise, if any. -/
def bitsFault (n src dst : Nat) (s : State) : Option FaultCode :=
  if !spansInDmem n src dst s then some .bufferBounds
  else if !inputReadable n src s then some .bufferBounds
  else if !outputWritable n dst s then some .bufferBounds
  else if spansOverlap n src dst then some .bufferOverlap
  else none

/-- REFLECT.BITS on a block that is not FAULTED (R115). -/
def reflectBuffer (n src dst : Nat) (s : State) : Result :=
  match bitsFault n src dst s with
  | some code => raiseFault code s
  | none =>
    match bitsRun n src dst s with
    | some c => respond .done (withBuffer c.dmem c.events s)
    | none => raiseFault .bufferBounds s

/-- REFLECT.BITS (R115). -/
def execReflectBits (n src dst : Nat) (s : State) : Result := unlessFaulted s (reflectBuffer n src dst)

end Sys2Proof.Machine
end

