-- ==== Sys2Proof/Machine/FixedWidth.lean ====
section
/-! DEFINITION. The eight fixed-width reflects (R90 to R101). -/

namespace Sys2Proof.Machine

/-- The effect of a fixed-width reflect of width N (R90, R93): `x <- A[N−1:0]`, `y <- rev_N(x)`, respond
`Value(zext_64(y))`, zero-extended in the signed forms too (R66, R92). -/
def reflectFixed (N : Nat) (a : PortWord) (s : State) : Result :=
  unlessFaulted s (respond (.value (zext 64 (rev (operand N a)))))

/-- REFLECT.U8 (R94). -/
def execReflectU8 (a : PortWord) (s : State) : Result := reflectFixed 8 a s

/-- REFLECT.U16 (R95). -/
def execReflectU16 (a : PortWord) (s : State) : Result := reflectFixed 16 a s

/-- REFLECT.U32 (R96). -/
def execReflectU32 (a : PortWord) (s : State) : Result := reflectFixed 32 a s

/-- REFLECT.U64 (R97). -/
def execReflectU64 (a : PortWord) (s : State) : Result := reflectFixed 64 a s

/-- REFLECT.S8 (R98): the same bits as REFLECT.U8 (R92). -/
def execReflectS8 (a : PortWord) (s : State) : Result := reflectFixed 8 a s

/-- REFLECT.S16 (R99). -/
def execReflectS16 (a : PortWord) (s : State) : Result := reflectFixed 16 a s

/-- REFLECT.S32 (R100). -/
def execReflectS32 (a : PortWord) (s : State) : Result := reflectFixed 32 a s

/-- REFLECT.S64 (R101). -/
def execReflectS64 (a : PortWord) (s : State) : Result := reflectFixed 64 a s

end Sys2Proof.Machine
end

