-- ==== Sys2Proof/Machine/Dispatch.lean ====
section
/-! DEFINITION. The meaning of each instruction, one arm per constructor. -/

namespace Sys2Proof.Machine

def exec (i : Instr) (s : State) : Host.Outcome State Fault Refusal :=
  match i with
  | .reflectU8 a => Sys2Proof.Machine.execReflectU8 a s
  | .reflectU16 a => Sys2Proof.Machine.execReflectU16 a s
  | .reflectU32 a => Sys2Proof.Machine.execReflectU32 a s
  | .reflectU64 a => Sys2Proof.Machine.execReflectU64 a s
  | .reflectS8 a => Sys2Proof.Machine.execReflectS8 a s
  | .reflectS16 a => Sys2Proof.Machine.execReflectS16 a s
  | .reflectS32 a => Sys2Proof.Machine.execReflectS32 a s
  | .reflectS64 a => Sys2Proof.Machine.execReflectS64 a s
  | .reflectBits n src dst => Sys2Proof.Machine.execReflectBits n src dst s

end Sys2Proof.Machine
end

