-- ==== Sys2Proof/Machine/HostPort.lean ====
section
/-! DEFINITION. What the host does to the machine (R171): STATUS and DMEM moves, the duty of R56, issuing a command,
and reset, also while a command is in flight (R162). -/

namespace Sys2Proof.Machine

/-- The DMEM address a host move touches. -/
def moveAddr : HostMove → Option Nat
  | .statusRead => none
  | .dmemRead a => some a
  | .dmemWrite a _ => some a

/-- The effect of a host move on an address that exists: a STATUS read has no side effect (R26), DMEM is plain memory
(R48), and all of it is the host's (R171). -/
def applyMove (m : HostMove) (s : State) : State :=
  match m with
  | .statusRead => { s with reads := s.reads ++ [.status (statusPort s)] }
  | .dmemRead a => { s with reads := s.reads ++ [.byte a (readByte s.dmem a)] }
  | .dmemWrite a v => { s with dmem := writeByte s.dmem a v }

/-- A host move; DMEM has no address at or above `2^ADDR_WIDTH` (R40, log entry 11). -/
def hostMove (m : HostMove) (s : State) : Result :=
  match moveAddr m with
  | none => .next (applyMove m s)
  | some a => if a < s.cfg.dmemSize then .next (applyMove m s) else .fault (.noSuchAddress a)

/-- The buffer operands of a command, if it is a REFLECT.BITS command. -/
def commandBuffers (cfg : Config) (cmd : Command) : Option (Nat × Nat × Nat) :=
  match decode cfg cmd with
  | .ok i => bufferOperands i
  | .error _ => none

/-- R56: address a lies in a region of the command, `[SRC, SRC + L)` or `[DST, DST + L)`. -/
def inCommandRegion (cfg : Config) (cmd : Command) (a : Nat) : Bool :=
  match commandBuffers cfg cmd with
  | none => false
  | some (n, src, dst) => inSpan src (ceil8 n) a || inSpan dst (ceil8 n) a

/-- A host move while `cmd` is in flight: the host keeps out of the command's regions (R56, R171). -/
def moveInFlight (cmd : Command) (m : HostMove) (s : State) : Result :=
  match moveAddr m with
  | none => hostMove m s
  | some a => if inCommandRegion s.cfg cmd a then .fault (.hostDutyBroken a) else hostMove m s

/-- Put a command with its predicates on the port (R42, R171). -/
def issueCommand (cmd : Command) (readable writable : List Region) (s : State) : State :=
  { s with port := some cmd, readable := readable, writable := writable }

/-- A host action while no command is in flight. -/
def hostAction (act : HostAction) (s : State) : Result :=
  match act with
  | .issue cmd rd wr => .next (issueCommand cmd rd wr s)
  | .move m => hostMove m s
  | .meanwhile m => hostMove m s
  | .reset => .next (resetBlock s)
  | .resetMeanwhile => .next (resetBlock s)

/-- How many of the `len` bytes from `base` on have an address that exists (R40). -/
def bytesInDmem (cfg : Config) (base len : Nat) : Nat := min len (cfg.dmemSize - base)

/-- What an interrupting reset leaves of a REFLECT.BITS command's output (R162): every byte of `[dst, dst + L)` is
drawn freely, whatever the command's checks would have said and whatever STATUS holds (log entry 8). -/
def cutBuffer (n src dst : Nat) (s : State) : State :=
  drawSpan dst (bytesInDmem s.cfg dst (ceil8 n)) (withBuffer s.dmem [.cut src dst (ceil8 n)] s)

/-- Reset while `cmd` is in flight (R160, R162): the command gets no response. -/
def resetInFlight (cmd : Command) (s : State) : State :=
  match commandBuffers s.cfg cmd with
  | none => resetBlock s
  | some (n, src, dst) => resetBlock (cutBuffer n src dst s)

/-- The host action lands while the command in flight is unanswered. -/
def landsInFlight : HostAction → Bool
  | .issue _ _ _ => false
  | .move _ => false
  | .meanwhile _ => true
  | .reset => false
  | .resetMeanwhile => true

end Sys2Proof.Machine
end

