-- ==== Sys2Proof/Machine/Port.lean ====
section
/-! DEFINITION. What one step does: the command in flight is decoded and run, or the host's next action happens. -/

namespace Sys2Proof.Machine

/-- Run the command in flight, whole and in one step (R31, R52): its instruction, or ILLEGAL_OP (R65). -/
def runCommand (cmd : Command) (s : State) : Result :=
  match decode s.cfg cmd with
  | .ok i => exec i s
  | .error (.reservedOp _) => answerIllegalOp s

/-- A step with `cmd` in flight: a reset or a move that lands in flight comes first; otherwise the command runs. -/
def stepInFlight (cmd : Command) (s : State) : Result :=
  match s.inbox with
  | [] => runCommand cmd s
  | .issue _ _ _ :: _ => runCommand cmd s
  | .move _ :: _ => runCommand cmd s
  | .meanwhile m :: rest => moveInFlight cmd m (withInbox rest s)
  | .reset :: _ => runCommand cmd s
  | .resetMeanwhile :: rest => .next (resetInFlight cmd (withInbox rest s))

/-- A step with no command in flight: the host's next action; with none, the block is idle and waits (R163). -/
def stepIdle (s : State) : Result :=
  match s.inbox with
  | [] => .next s
  | act :: rest => hostAction act (withInbox rest s)

/-- The whole step. -/
def stepMachine (s : State) : Result :=
  match s.port with
  | some cmd => stepInFlight cmd s
  | none => stepIdle s

/-- Place a transaction on the port so that the next step runs it (log entry 4): a host action that would land in
flight before it is dropped. -/
def placeCommand (cmd : Command) (s : State) : State :=
  { s with port := some cmd, inbox := s.inbox.dropWhile landsInFlight }

end Sys2Proof.Machine
end

