-- ==== Sys2Proof/Machine/Step.lean ====
section
/-! DEFINITION. The step function, and the placing of a command where the next step takes it. -/

namespace Sys2Proof.Machine

/-- One step of the machine. -/
def step (s : State) : Host.Outcome State Fault Refusal := stepMachine s

/-- The command whose opcode-table bits are `w` (higher bits 0), in flight and next to run. -/
def State.withFetchWord (s : State) (nbits w : Nat) : State :=
  placeCommand (commandOfBits s.cfg (w % 2 ^ nbits)) s

end Sys2Proof.Machine
end

