-- ==== Sys2Proof/Machine/Assembly.lean ====
section
/-! DEFINITION. The assembler syntax (R70 to R72): a listing line to the command it stands for. Lines are lists of
characters, so that the kernel can read one. -/

namespace Sys2Proof.Machine

/-- What a listing line stands for (R70, R72). -/
inductive AsmLine where
  | command (i : Instr)
  /-- `status?`: a host read of STATUS, no command (R72). -/
  | statusQuery
  /-- Nothing but blanks and a comment. -/
  | blank
  deriving DecidableEq, Repr

/-- A written operand: a number, or a negative decimal number `-v` (R70). -/
inductive AsmOperand where
  | number (v : Nat)
  | negative (v : Nat)
  deriving DecidableEq, Repr

/-- Blanks between the parts of a line (log entry 15). -/
def isBlank (c : Char) : Bool := c = ' ' || c = '\t' || c = '\r'

/-- The text without blanks at either end. -/
def trimBlanks (cs : List Char) : List Char := ((cs.dropWhile isBlank).reverse.dropWhile isBlank).reverse

/-- The parts of a text between commas. -/
def splitCommas : List Char → List (List Char)
  | [] => [[]]
  | c :: cs =>
    match splitCommas cs with
    | [] => [[c]]
    | p :: ps => if c = ',' then [] :: p :: ps else (c :: p) :: ps

/-- The digits of R70's numbers, each at its value: the first ten are the decimal ones. -/
def digitChars : List Char := ['0', '1', '2', '3', '4', '5', '6', '7', '8', '9', 'a', 'b', 'c', 'd', 'e', 'f']

/-- The value of a digit, its place in `digitChars`. Both cases of a letter are one digit (log entry 15). -/
def digitValue (c : Char) : Option Nat := digitChars.idxOf? c.toLower

/-- The digits read so far continued by one more. -/
def addDigit (base : Nat) (acc : Option Nat) (c : Char) : Option Nat :=
  match acc, digitValue c with
  | some n, some d => if d < base then some (base * n + d) else none
  | _, _ => none

/-- A non-empty digit string in a base. -/
def parseDigits (base : Nat) : List Char → Option Nat
  | [] => none
  | c :: cs => (c :: cs).foldl (addDigit base) (some 0)

/-- A number: decimal, or hexadecimal with `0x` (R70). -/
def parseNumber : List Char → Option Nat
  | '0' :: 'x' :: cs => parseDigits 16 cs
  | cs => parseDigits 10 cs

/-- An operand of a command line. -/
def parseOperand : List Char → Option AsmOperand
  | '-' :: cs => (parseDigits 10 cs).map .negative
  | cs => (parseNumber cs).map .number

/-- The operand of an unsigned form: a 64-bit port value (R60, R70). -/
def unsignedOperand : AsmOperand → Option PortWord
  | .number v => if v < 2 ^ 64 then some (BitVec.ofNat 64 v) else none
  | .negative _ => none

/-- The operand of a signed form of width N (R70): a negative number `-v` with `−2^(N−1) ≤ -v < 0` stands for its N-bit
two's-complement pattern, zero-extended to 64 bits. -/
def signedOperand (N : Nat) : AsmOperand → Option PortWord
  | .number v => unsignedOperand (.number v)
  | .negative v => if 0 < v && v ≤ 2 ^ (N - 1) then some (zext 64 (BitVec.ofNat N (2 ^ N - v))) else none

/-- A plain number operand (R70). -/
def plainOperand : AsmOperand → Option Nat
  | .number v => some v
  | .negative _ => none

/-- The pseudo-instruction `lut.read b`, for 0 ≤ b ≤ 255, stands for `reflect.u8 b` (R71). -/
def lutRead (b : Nat) : Option Instr := if b ≤ 255 then some (.reflectU8 (BitVec.ofNat 64 b)) else none

/-- `reflect.bits DST, SRC, NBITS` (R70): written destination, source, count; each must fit its port (R60). -/
def bitsLine (cfg : Config) (dst src n : Nat) : Option Instr :=
  if (Instr.reflectBits n src dst).wellFormed cfg then some (.reflectBits n src dst) else none

/-- The instruction of a mnemonic with its operands (R70, R71). -/
def assembleCommand (cfg : Config) (mnemonic : List Char) (ops : List AsmOperand) : Option Instr :=
  match ops with
  | [x] =>
    if mnemonic = ['r', 'e', 'f', 'l', 'e', 'c', 't', '.', 'u', '8'] then (unsignedOperand x).map .reflectU8
    else if mnemonic = ['r', 'e', 'f', 'l', 'e', 'c', 't', '.', 'u', '1', '6'] then (unsignedOperand x).map .reflectU16
    else if mnemonic = ['r', 'e', 'f', 'l', 'e', 'c', 't', '.', 'u', '3', '2'] then (unsignedOperand x).map .reflectU32
    else if mnemonic = ['r', 'e', 'f', 'l', 'e', 'c', 't', '.', 'u', '6', '4'] then (unsignedOperand x).map .reflectU64
    else if mnemonic = ['r', 'e', 'f', 'l', 'e', 'c', 't', '.', 's', '8'] then (signedOperand 8 x).map .reflectS8
    else if mnemonic = ['r', 'e', 'f', 'l', 'e', 'c', 't', '.', 's', '1', '6'] then (signedOperand 16 x).map .reflectS16
    else if mnemonic = ['r', 'e', 'f', 'l', 'e', 'c', 't', '.', 's', '3', '2'] then (signedOperand 32 x).map .reflectS32
    else if mnemonic = ['r', 'e', 'f', 'l', 'e', 'c', 't', '.', 's', '6', '4'] then (signedOperand 64 x).map .reflectS64
    else if mnemonic = ['l', 'u', 't', '.', 'r', 'e', 'a', 'd'] then (plainOperand x).bind lutRead
    else none
  | [d, x, n] =>
    if mnemonic = ['r', 'e', 'f', 'l', 'e', 'c', 't', '.', 'b', 'i', 't', 's'] then
      match plainOperand d, plainOperand x, plainOperand n with
      | some d, some x, some n => bitsLine cfg d x n
      | _, _, _ => none
    else none
  | _ => none

/-- One line of a listing (R70): `;` starts a comment, the mnemonic comes first, commas part the operands. `none` is a
line that is no line of the syntax. -/
def assembleLine (cfg : Config) (line : List Char) : Option AsmLine :=
  let text := trimBlanks (line.takeWhile (· ≠ ';'))
  let mnemonic := text.takeWhile (!isBlank ·)
  if text = [] then some .blank
  else if text = ['s', 't', 'a', 't', 'u', 's', '?'] then some .statusQuery
  else
    (((splitCommas (text.drop mnemonic.length)).map fun p => parseOperand (trimBlanks p)).mapM id).bind fun ops =>
      (assembleCommand cfg mnemonic ops).map .command

/-- The host action of a line (R70, R72): a command record with the predicates the host gives it, or a STATUS read. -/
def lineAction (readable writable : List Region) : AsmLine → Option HostAction
  | .command i => some (.issue (encode i) readable writable)
  | .statusQuery => some (.move .statusRead)
  | .blank => none

end Sys2Proof.Machine
end

