-- ==== Sys2Proof/Safety.lean ====
section
/-! DEFINITION. What counts as a legal state (R4, R25, R40), the end of a run and its observation (R172), and a run
that is not a faulted run. -/

namespace Sys2Proof

open Machine

/-- STATUS is legal (R25): bits [7:4] are 0, FCODE is at most 3, and `FAULTED = 0 ⇔ FCODE = 0`. -/
abbrev StatusLegal (s : State) : Prop :=
  s.status.extractLsb' 4 4 = 0 ∧ (fcode s).toNat ≤ 3 ∧ (faulted s = false ↔ fcode s = 0)

/-- DMEM is legal: canonical, and every byte lies at an address that exists (R40). -/
abbrev DmemLegal (s : State) : Prop := Memory.wf s.dmem ∧ ∀ c ∈ s.dmem, c.1 < s.cfg.dmemSize

/-- The invariant of the machine: legal parameters (R4), STATUS and DMEM. -/
abbrev Legal (s : State) : Prop := s.cfg.wf ∧ StatusLegal s ∧ DmemLegal s

/-- The host issues a command by this action. -/
def issues : HostAction → Bool
  | .issue _ _ _ => true
  | .move _ => false
  | .meanwhile _ => false
  | .reset => false
  | .resetMeanwhile => false

/-- A run is over when every issued command has its response and the host issues no more (R172): none is in flight, a
reset has left none unanswered, and no issue is to come. DESIGN CHOICE (log entry 22): a move or a reset the host makes
after that does not belong to the run. -/
abbrev RunOver (s : State) : Prop :=
  s.port = none ∧ s.abandoned = 0 ∧ s.inbox.all (fun act => !issues act) = true

/-- The end of the run from a state, within `fuel` steps: the first state at which the run is over (R172, log entry
22). A run with a command left unanswered has none. -/
def runEnd (fuel : Nat) (s : State) : Option State :=
  if RunOver s then some s
  else
    match fuel with
    | 0 => none
    | fuel + 1 =>
      match step s with
      | .next t => runEnd fuel t
      | .fault _ => none
      | .refused _ => none

/-- What an observer sees at the end of a run (R172): the responses, STATUS, and the DMEM bytes. -/
def observation (s : State) : List Response × BitVec 8 × Memory := (s.responses, statusPort s, s.dmem)

/-- The run from s ends with FAULTED = 1: a faulted run (R172). -/
def FaultedRun (s : State) : Prop := ∃ fuel e, runEnd fuel s = some e ∧ faulted e = true

/-- The run from s ends, and is no faulted run (R172). -/
def SafeRun (s : State) : Prop := ∃ fuel e, runEnd fuel s = some e ∧ faulted e = false

end Sys2Proof
end

