-- ==== Sys2Proof/Certificates/Slice0/Obligations.lean ====
section
/-! DEFINITION. The statements for the provers, from the numbered rules of spec/. The helpers under `Sys2Proof.Claims`
say the rules' own conditions, apart from the machine's definitions where they can. -/

/-! ## Conditions the statements share -/

namespace Sys2Proof.Claims

open Machine

/-- STATUS.FAULTED = 0, bit 0 of STATUS (R25). -/
abbrev NotFaulted (s : State) : Prop := s.status.getLsbD 0 = false

/-- `readable(a)` (R42): a holds a byte and the host admits reads there. -/
abbrev HostReadable (s : State) (a : Nat) : Prop :=
  (readByte s.dmem a).isSome = true ∧ ∃ r ∈ s.readable, r.base ≤ a ∧ a < r.base + r.size

/-- `writable(a)` (R42). -/
abbrev HostWritable (s : State) (a : Nat) : Prop := ∃ r ∈ s.writable, r.base ≤ a ∧ a < r.base + r.size

/-- Checks 1 to 3 of R122, with `L = (n + 7) div 8`. -/
abbrev BoundsOk (s : State) (n src dst : Nat) : Prop :=
  src + (n + 7) / 8 ≤ 2 ^ s.cfg.addrWidth ∧ dst + (n + 7) / 8 ≤ 2 ^ s.cfg.addrWidth ∧
    (∀ k < (n + 7) / 8, HostReadable s (src + k)) ∧ ∀ k < (n + 7) / 8, HostWritable s (dst + k)

/-- The two regions share an address (R143). -/
def ShareAddress (n src dst : Nat) : Prop :=
  ∃ a, (src ≤ a ∧ a < src + (n + 7) / 8) ∧ dst ≤ a ∧ a < dst + (n + 7) / 8

/-- The conditions under which REFLECT.BITS runs its steps (R115, R122): not FAULTED, and all four checks pass. -/
structure BitsReady (s : State) (n src dst : Nat) : Prop where
  notFaulted : NotFaulted s
  bounds : BoundsOk s n src dst
  apart : src = dst ∨ ¬ShareAddress n src dst

/-- The input bytes `In[k]`, 0 ≤ k < L (R110). -/
abbrev InputIs (s : State) (n src : Nat) (In : Nat → Byte) : Prop :=
  ∀ k < (n + 7) / 8, readByte s.dmem (src + k) = some (In k)

/-- The output bytes `Out[j]`, 0 ≤ j < L (R110). -/
abbrev OutputIs (t : State) (n dst : Nat) (Out : Nat → Byte) : Prop :=
  ∀ j < (n + 7) / 8, readByte t.dmem (dst + j) = some (Out j)

/-- `Σ_{k<L} B[k]·2^(8k)` (R119). -/
def bytesValue (B : Nat → Byte) (L : Nat) : Nat := ((List.range L).map fun k => (B k).toNat * 2 ^ (8 * k)).sum

/-- `cmd` is in flight and neither a reset nor a host move lands before it runs. -/
structure RunsNext (s : State) (cmd : Command) : Prop where
  inFlight : s.port = some cmd
  noReset : s.inbox.head? ≠ some .resetMeanwhile
  noMove : ∀ m, s.inbox.head? ≠ some (.meanwhile m)

/-- `c` is a REFLECT.BITS command with count n and addresses src and dst, each a value of its port (R60, R63, R67). -/
abbrev BitsCommand (cfg : Config) (c : Command) (n src dst : Nat) : Prop :=
  c.op = 0x8 ∧ c.nbits = n ∧ c.src = src ∧ c.dst = dst ∧
    n < 2 ^ cfg.bitcountWidth ∧ src < 2 ^ cfg.addrWidth ∧ dst < 2 ^ cfg.addrWidth

/-- A reset lands in this step (R160): between commands, or while a command in flight is unanswered. -/
abbrev ResetLands (s : State) (rest : List HostAction) : Prop :=
  s.inbox = .resetMeanwhile :: rest ∨ s.port = none ∧ s.inbox = .reset :: rest

/-- `m` reads or writes the DMEM byte at a (R171). -/
abbrev AccessTo (m : HostMove) (a : Nat) : Prop := m = .dmemRead a ∨ ∃ v, m = .dmemWrite a v

/-- The step does the host's DMEM access `m` and nothing else: a read gives back the byte, a write sets it (R48). -/
def AccessDone (s : State) (m : HostMove) (rest : List HostAction) : Prop :=
  (∀ a, m = .dmemRead a →
    step s = .next { s with inbox := rest, reads := s.reads ++ [.byte a (readByte s.dmem a)] }) ∧
  ∀ a v, m = .dmemWrite a v → step s = .next { s with inbox := rest, dmem := writeByte s.dmem a v }

/-- Commands the host has issued: answered, left unanswered by a reset, or in flight (R28, R160). -/
def commandsIssued (s : State) : Nat := s.responses.length + s.abandoned + if s.port.isSome then 1 else 0

/-- The two fixed-width instructions of a width, unsigned and signed (R63). -/
inductive FixedForm : Nat → (PortWord → Instr) → Prop where
  | u8 : FixedForm 8 .reflectU8
  | s8 : FixedForm 8 .reflectS8
  | u16 : FixedForm 16 .reflectU16
  | s16 : FixedForm 16 .reflectS16
  | u32 : FixedForm 32 .reflectU32
  | s32 : FixedForm 32 .reflectS32
  | u64 : FixedForm 64 .reflectU64
  | s64 : FixedForm 64 .reflectS64

/-- An instruction rule R94 to R101: OP, and the response `Value(zext_64(rev_N(A[N−1:0])))` bit by bit, with nothing
else changed. -/
def FullReflect (N : Nat) (op : BitVec 4) (mk : PortWord → Instr) : Prop :=
  (∀ cfg c, c.op = op → decode cfg c = .ok (mk c.a)) ∧
    ∀ a s, NotFaulted s → ∃ y : PortWord,
      exec (mk a) s = .next { s with port := none, responses := s.responses ++ [.value y] } ∧
        (∀ i < N, y.getLsbD i = a.getLsbD (N - 1 - i)) ∧ ∀ i, N ≤ i → y.getLsbD i = false

/-- Everything but the port, the responses, DMEM and its event record is unchanged. -/
abbrev OnlyBufferEffects (s t : State) : Prop :=
  t = { s with port := t.port, responses := t.responses, dmem := t.dmem, events := t.events }

end Sys2Proof.Claims

open Sys2Proof Sys2Proof.Machine Sys2Proof.Claims

/-! ## The table -/

/-- R80, R82, R83: the table has 256 entries; every entry is the bit reversal of its index, `T[b][7−i] = b[i]`, so bit i
is `b[7−i]` and there is no bit above 7; `T[T[b]] = b`; `T[0] = 0` and `T[255] = 255`. -/
def Obligations.TableReversesEveryByte : Prop :=
  table.length = 256 ∧ (∀ (b : Byte) (i : Nat), (tableRead b).getLsbD i = (decide (i < 8) && b.getLsbD (7 - i))) ∧
    (∀ b, tableRead (tableRead b) = b) ∧ tableRead 0 = 0 ∧ tableRead 255 = 255

/-- R91: the byte algorithm, with both sides numbered from the most significant byte, is full bit reversal, at every
width of whole bytes. -/
def Obligations.TableAlgorithmReversesAllBits : Prop :=
  ∀ (nb : Nat) (x : BitVec (8 * nb)) (i : Nat), i < 8 * nb →
    (tableReflect nb x).getLsbD i = x.getLsbD (8 * nb - 1 - i)

/-! ## The fixed-width reflects -/

/-- R94, R98. -/
def Obligations.Reflect8Result : Prop := FullReflect 8 0x0 .reflectU8 ∧ FullReflect 8 0x4 .reflectS8

/-- R95, R99. -/
def Obligations.Reflect16Result : Prop := FullReflect 16 0x1 .reflectU16 ∧ FullReflect 16 0x5 .reflectS16

/-- R96, R100. -/
def Obligations.Reflect32Result : Prop := FullReflect 32 0x2 .reflectU32 ∧ FullReflect 32 0x6 .reflectS32

/-- R97, R101. -/
def Obligations.Reflect64Result : Prop := FullReflect 64 0x3 .reflectU64 ∧ FullReflect 64 0x7 .reflectS64

/-- R66, R92: bits A[63:N] affect nothing, both forms of a width answer the same, and Y[63:N] is 0 in both. -/
def Obligations.OperandAndResultZeroExtend : Prop :=
  ∀ N mk mk', FixedForm N mk → FixedForm N mk' → ∀ (a a' : PortWord) (s : State),
    ((∀ i < N, a.getLsbD i = a'.getLsbD i) → exec (mk a) s = exec (mk' a') s) ∧
      (NotFaulted s → ∃ y : PortWord,
        exec (mk a) s = .next { s with port := none, responses := s.responses ++ [.value y] } ∧
          y = ((a.extractLsb' 0 N).reverse).setWidth 64)

/-- R93: a fixed-width command does nothing but answer; it answers `Fault` only while FAULTED = 1. -/
def Obligations.FixedWidthOnlyResponds : Prop :=
  ∀ N mk, FixedForm N mk → ∀ a s, ∃ r,
    exec (mk a) s = .next { s with port := none, responses := s.responses ++ [r] } ∧
      (NotFaulted s → ∃ y, r = .value y) ∧ (¬NotFaulted s → r = .fault (s.status.extractLsb' 1 3))

/-- R102: reflecting the reflected value gives `zext_64(A[N−1:0])` back, at the ports. -/
def Obligations.FixedWidthIsInvolution : Prop :=
  ∀ N mk, FixedForm N mk → ∀ (a : PortWord) (s : State), NotFaulted s → ∃ y t u,
    exec (mk a) s = .next t ∧ t.responses = s.responses ++ [.value y] ∧
      exec (mk y) t = .next u ∧ u.responses = t.responses ++ [.value ((a.extractLsb' 0 N).setWidth 64)]

/-! ## Faults -/

/-- R64, R141, R145: a reserved OP faults with code 1; STATUS becomes 0x03 and nothing else changes. -/
def Obligations.ReservedOpFaults : Prop :=
  ∀ s c, RunsNext s c → 0x9 ≤ c.op.toNat → NotFaulted s →
    step s = .next { s with port := none, status := 0x03, responses := s.responses ++ [.fault 1] }

/-- R142: a check of bounds that fails raises code 2, whether or not the regions overlap; STATUS becomes 0x05. It is never
raised when n = 0. -/
def Obligations.BufferBoundsFaults : Prop :=
  (∀ s n src dst, NotFaulted s → ¬BoundsOk s n src dst →
    exec (.reflectBits n src dst) s =
      .next { s with port := none, status := 0x05, responses := s.responses ++ [.fault 2] }) ∧
  ∀ s src dst, NotFaulted s → src < 2 ^ s.cfg.addrWidth → dst < 2 ^ s.cfg.addrWidth → ∃ t,
    exec (.reflectBits 0 src dst) s = .next t ∧ t.responses = s.responses ++ [.done]

/-- R143: regions that share an address and are not identical raise code 3; STATUS becomes 0x07. -/
def Obligations.BufferOverlapFaults : Prop :=
  ∀ s n src dst, NotFaulted s → BoundsOk s n src dst → src ≠ dst → ShareAddress n src dst →
    exec (.reflectBits n src dst) s =
      .next { s with port := none, status := 0x07, responses := s.responses ++ [.fault 3] }

/-- R145: a command that answers `Fault(code)` while FAULTED = 0 has set FAULTED to 1 and FCODE to the code, one of the
three of R140, and has done nothing else. -/
def Obligations.FaultEntryIsPrecise : Prop :=
  ∀ s t c code, RunsNext s c → NotFaulted s → step s = .next t → t.responses = s.responses ++ [.fault code] →
    (code = 1 ∨ code = 2 ∨ code = 3) ∧ t.status.getLsbD 0 = true ∧ t.status.extractLsb' 1 3 = code ∧
      t = { s with port := none, status := t.status, responses := s.responses ++ [.fault code] }

/-- R146: while FAULTED = 1 every command, reserved OPs too, is answered with the stored code and does nothing else. -/
def Obligations.FaultedBlockAnswersStoredCode : Prop :=
  ∀ s, s.status.getLsbD 0 = true →
    (∀ i, exec i s = .next { s with port := none, responses := s.responses ++ [.fault (s.status.extractLsb' 1 3)] }) ∧
      ∀ c, RunsNext s c →
        step s = .next { s with port := none, responses := s.responses ++ [.fault (s.status.extractLsb' 1 3)] }

/-- R144: one response, and at most one fault, chosen in the order stored code, ILLEGAL_OP, BUFFER_BOUNDS,
BUFFER_OVERLAP; where none applies the response is no fault. -/
def Obligations.OneFaultByPriority : Prop :=
  ∀ s c, RunsNext s c → ∃ t r, step s = .next t ∧ t.port = none ∧ t.responses = s.responses ++ [r] ∧
    (¬NotFaulted s → r = .fault (s.status.extractLsb' 1 3)) ∧
    (NotFaulted s → 0x9 ≤ c.op.toNat → r = .fault 1) ∧
    (NotFaulted s → c.op.toNat < 0x8 → ∃ y, r = .value y) ∧
    ∀ n src dst, NotFaulted s → BitsCommand s.cfg c n src dst →
      (¬BoundsOk s n src dst → r = .fault 2) ∧
      (BoundsOk s n src dst → src ≠ dst ∧ ShareAddress n src dst → r = .fault 3) ∧
      (BoundsOk s n src dst → ¬(src ≠ dst ∧ ShareAddress n src dst) → r = .done)

/-- R147: no step but a reset leaves the FAULTED state, and the first code is kept. -/
def Obligations.OnlyResetLeavesFaulted : Prop :=
  ∀ s t, s.status.getLsbD 0 = true → step s = .next t →
    (∃ rest, ResetLands s rest ∧ t.status = 0x00) ∨
      (t.status.getLsbD 0 = true ∧ t.status.extractLsb' 1 3 = s.status.extractLsb' 1 3)

/-- R26: a host read of STATUS, with or without a command in flight, gives its value and changes nothing else; and a
step that changes STATUS is a reset or the fault entry of the command in flight. -/
def Obligations.StatusChangesOnlyByFaultOrReset : Prop :=
  (∀ s rest, (s.inbox = .meanwhile .statusRead :: rest ∨ s.port = none ∧ s.inbox = .move .statusRead :: rest) →
    s.status.extractLsb' 4 4 = 0 → step s = .next { s with inbox := rest, reads := s.reads ++ [.status s.status] }) ∧
  ∀ s t, step s = .next t → t.status ≠ s.status →
    (∃ rest, ResetLands s rest ∧ t.status = 0x00) ∨
      (NotFaulted s ∧ s.port.isSome = true ∧ t.port = none ∧ t.status.getLsbD 0 = true ∧
        t.responses = s.responses ++ [.fault (t.status.extractLsb' 1 3)] ∧ t.dmem = s.dmem ∧ t.events = s.events)

/-! ## REFLECT.BITS -/

/-- R117: a zero count makes no access, raises no fault and is answered `Done`, whatever is readable or writable. -/
def Obligations.ZeroLengthTouchesNothing : Prop :=
  ∀ s src dst, NotFaulted s → src < 2 ^ s.cfg.addrWidth → dst < 2 ^ s.cfg.addrWidth →
    exec (.reflectBits 0 src dst) s = .next { s with port := none, responses := s.responses ++ [.done] }

/-- R113: after step 1, step 2 reads In[m] and writes the partial byte p at dst + m, with `p[r−1−i] = In[m][i]` and zeros
from r on, equivalently `zext_8(rev_r(In[m][r−1:0]))` and `T[In[m]] >> (8 − r)`; with r = 0 it does nothing. -/
def Obligations.PartialByteStep : Prop :=
  ∀ s n src dst In c, BitsReady s n src dst → InputIs s n src In →
    bitsStep1 s src dst (n / 8) { dmem := s.dmem, events := [] } = some c →
      (n % 8 = 0 → bitsStep2 s src dst (n / 8) (n % 8) c = some c) ∧
      (n % 8 ≠ 0 → ∃ c' p, bitsStep2 s src dst (n / 8) (n % 8) c = some c' ∧
        readByte c'.dmem (dst + n / 8) = some p ∧
        (∀ a, a ≠ dst + n / 8 → readByte c'.dmem a = readByte c.dmem a) ∧
        c'.events = c.events ++ [.read (src + n / 8), .write (dst + n / 8)] ∧
        (∀ i < n % 8, p.getLsbD (n % 8 - 1 - i) = (In (n / 8)).getLsbD i) ∧
        (∀ j, n % 8 ≤ j → p.getLsbD j = false) ∧
        p = ((In (n / 8)).extractLsb' 0 (n % 8)).reverse.setWidth 8 ∧ p = tableRead (In (n / 8)) >>> (8 - n % 8))

/-- R112: step 1 writes `Out[k] <- T[In[k]]` for each complete byte in ascending order, on regions that are disjoint
or identical. -/
def Obligations.CompleteBytesStep : Prop :=
  ∀ s n src dst In, BitsReady s n src dst → InputIs s n src In → ∃ c,
    bitsStep1 s src dst (n / 8) { dmem := s.dmem, events := [] } = some c ∧
      (∀ k < n / 8, readByte c.dmem (dst + k) = some (tableRead (In k))) ∧
      (∀ a, ¬(dst ≤ a ∧ a < dst + n / 8) → readByte c.dmem a = readByte s.dmem a) ∧
      c.events = (List.range (n / 8)).flatMap fun k => [.read (src + k), .write (dst + k)]

/-- R114: step 3 reverses the order of the L output bytes in place, once the command has written them. -/
def Obligations.ByteOrderStep : Prop :=
  ∀ (s : State) (c : BitsRun) (dst L : Nat) (Out : Nat → Byte),
    (∀ k < L, readByte c.dmem (dst + k) = some (Out k)) → (∀ k < L, .write (dst + k) ∈ c.events) →
    (∀ k < L, HostWritable s (dst + k)) → ∃ c',
      bitsStep3 s dst L c = some c' ∧ (∀ j < L, readByte c'.dmem (dst + j) = some (Out (L - 1 - j))) ∧
        ∀ a, ¬(dst ≤ a ∧ a < dst + L) → readByte c'.dmem a = readByte c.dmem a

/-- R119: the closed form of the final output, as bytes and as integers. With V the input string and `R = rev_n(V)`,
the output read as an integer is R when r = 0, and `(R mod 2^r) + 2^8·(R div 2^r)` when r > 0. -/
def Obligations.BitsOutputClosedForm : Prop :=
  ∀ s n src dst In, BitsReady s n src dst → InputIs s n src In → ∃ t Out V R,
    exec (.reflectBits n src dst) s = .next t ∧ t.responses = s.responses ++ [.done] ∧ OutputIs t n dst Out ∧
      (n % 8 = 0 → ∀ j < (n + 7) / 8, Out j = tableRead (In ((n + 7) / 8 - 1 - j))) ∧
      (n % 8 ≠ 0 → Out 0 = ((In (n / 8)).extractLsb' 0 (n % 8)).reverse.setWidth 8 ∧
        ∀ j, 1 ≤ j → j ≤ n / 8 → Out j = tableRead (In (n / 8 - j))) ∧
      V = bytesValue In ((n + 7) / 8) % 2 ^ n ∧ R = (BitVec.ofNat n V).reverse.toNat ∧
      (n % 8 = 0 → bytesValue Out ((n + 7) / 8) = R) ∧
      (n % 8 ≠ 0 → bytesValue Out ((n + 7) / 8) = R % 2 ^ (n % 8) + 2 ^ 8 * (R / 2 ^ (n % 8)))

/-- R116: exactly the bytes dst to dst + L − 1 change; no input byte at or beyond index L is read; the input bytes are
unchanged unless src = dst; nothing else of the machine changes. -/
def Obligations.BitsFrame : Prop :=
  ∀ s n src dst, BitsReady s n src dst → ∃ t accesses,
    exec (.reflectBits n src dst) s = .next t ∧ OnlyBufferEffects s t ∧ t.port = none ∧
      t.responses = s.responses ++ [.done] ∧ t.events = s.events ++ accesses ∧
      (∀ a, ¬(dst ≤ a ∧ a < dst + (n + 7) / 8) → readByte t.dmem a = readByte s.dmem a) ∧
      (∀ a, .write a ∈ accesses → dst ≤ a ∧ a < dst + (n + 7) / 8) ∧
      (∀ a, .read a ∈ accesses →
        (src ≤ a ∧ a < src + (n + 7) / 8) ∨ (.write a ∈ accesses ∧ dst ≤ a ∧ a < dst + (n + 7) / 8)) ∧
      (src ≠ dst → ∀ k < (n + 7) / 8, readByte t.dmem (src + k) = readByte s.dmem (src + k))

/-- R124: the order of the command's DMEM accesses. -/
def Obligations.BitsAccessOrder : Prop :=
  ∀ s n src dst, BitsReady s n src dst → ∃ t, exec (.reflectBits n src dst) s = .next t ∧
    t.events = s.events ++
      (((List.range (n / 8)).flatMap fun k => [.read (src + k), .write (dst + k)]) ++
        (if n % 8 = 0 then [] else [.read (src + n / 8), .write (dst + n / 8)]) ++
        (List.range ((n + 7) / 8 / 2)).flatMap fun i =>
          [.read (dst + i), .read (dst + (n + 7) / 8 - 1 - i), .write (dst + i), .write (dst + (n + 7) / 8 - 1 - i)])

/-- R118: for 0 < r < 8 the final Out[0] is the partial byte of R113, whose bits r to 7 are zero; the bits of In[m] from
r on affect no output bit; and In[m] must still be readable. -/
def Obligations.PartialByteHighBitsIgnored : Prop :=
  (∀ s s' n src dst In In', BitsReady s n src dst → BitsReady s' n src dst → InputIs s n src In →
    InputIs s' n src In' → n % 8 ≠ 0 → (∀ k < n / 8, In k = In' k) →
    (∀ i < n % 8, (In (n / 8)).getLsbD i = (In' (n / 8)).getLsbD i) → ∃ t t' Out,
      exec (.reflectBits n src dst) s = .next t ∧ exec (.reflectBits n src dst) s' = .next t' ∧
        OutputIs t n dst Out ∧ OutputIs t' n dst Out ∧
        Out 0 = ((In (n / 8)).extractLsb' 0 (n % 8)).reverse.setWidth 8 ∧ ∀ i, n % 8 ≤ i → (Out 0).getLsbD i = false) ∧
  ∀ s n src dst, NotFaulted s → n % 8 ≠ 0 → ¬HostReadable s (src + n / 8) → ∃ t,
    exec (.reflectBits n src dst) s = .next t ∧ t.responses = s.responses ++ [.fault 2] ∧ t.dmem = s.dmem

/-- R120: with a value v of width N in the buffer, in either byte order, REFLECT.BITS with n = N leaves the bytes of the
fixed-width result in the same order. -/
def Obligations.BitsAgreesWithFixedWidth : Prop :=
  ∀ N mk, FixedForm N mk → ∀ (v : BitVec N) s src dst, BitsReady s N src dst → ∃ y u t,
    y = v.reverse.setWidth 64 ∧ exec (mk (v.setWidth 64)) s = .next u ∧ u.responses = s.responses ++ [.value y] ∧
    exec (.reflectBits N src dst) s = .next t ∧ t.responses = s.responses ++ [.done] ∧
      (InputIs s N src (fun k => v.extractLsb' (8 * k) 8) → OutputIs t N dst fun j => y.extractLsb' (8 * j) 8) ∧
      (InputIs s N src (fun k => v.extractLsb' (N - 8 - 8 * k) 8) →
        OutputIs t N dst fun j => y.extractLsb' (N - 8 - 8 * j) 8)

/-- R121: for n a multiple of 8, reflecting the output again with the same n gives the input back. For n = 12 and
In = [0x01, 0x00] the output is [0x00, 0x80], and reflecting that again gives [0x00, 0x00], not the input. -/
def Obligations.BitsInvolutionForWholeBytes : Prop :=
  (∀ s m src dst, BitsReady s (8 * m) src dst → ∃ t, exec (.reflectBits (8 * m) src dst) s = .next t ∧
    ∀ t' dst', t'.dmem = t.dmem → BitsReady t' (8 * m) dst dst' → ∃ u,
      exec (.reflectBits (8 * m) dst dst') t' = .next u ∧
        ∀ k < m, readByte u.dmem (dst' + k) = readByte s.dmem (src + k)) ∧
  ∀ s src dst, BitsReady s 12 src dst → readByte s.dmem src = some 0x01 → readByte s.dmem (src + 1) = some 0x00 →
    ∃ t, exec (.reflectBits 12 src dst) s = .next t ∧
      readByte t.dmem dst = some 0x00 ∧ readByte t.dmem (dst + 1) = some 0x80 ∧
        ∀ t' dst', t'.dmem = t.dmem → BitsReady t' 12 dst dst' → ∃ u, exec (.reflectBits 12 dst dst') t' = .next u ∧
          readByte u.dmem dst' = some 0x00 ∧ readByte u.dmem (dst' + 1) = some 0x00

/-- R123: identical regions give the output disjoint regions give from the same input bytes. -/
def Obligations.InPlaceEqualsDisjoint : Prop :=
  ∀ s s' n src dst buf In, BitsReady s n src dst → src ≠ dst → BitsReady s' n buf buf → InputIs s n src In →
    InputIs s' n buf In → ∃ t t' Out,
      exec (.reflectBits n src dst) s = .next t ∧ exec (.reflectBits n buf buf) s' = .next t' ∧
        OutputIs t n dst Out ∧ OutputIs t' n buf Out

/-! ## The port, the host and reset -/

/-- R63, R65, R67: each of the 16 OP values is exactly one of the nine operations or is rejected, whatever the other
fields hold; and REFLECT.BITS has n = NBITS, src = SRC and dst = DST, each as its port holds it. -/
def Obligations.DecodeByOp : Prop :=
  ∀ cfg c,
    (c.op = 0x0 → decode cfg c = .ok (.reflectU8 c.a)) ∧ (c.op = 0x1 → decode cfg c = .ok (.reflectU16 c.a)) ∧
    (c.op = 0x2 → decode cfg c = .ok (.reflectU32 c.a)) ∧ (c.op = 0x3 → decode cfg c = .ok (.reflectU64 c.a)) ∧
    (c.op = 0x4 → decode cfg c = .ok (.reflectS8 c.a)) ∧ (c.op = 0x5 → decode cfg c = .ok (.reflectS16 c.a)) ∧
    (c.op = 0x6 → decode cfg c = .ok (.reflectS32 c.a)) ∧ (c.op = 0x7 → decode cfg c = .ok (.reflectS64 c.a)) ∧
    (c.op = 0x8 → ∃ n src dst, decode cfg c = .ok (.reflectBits n src dst)) ∧
    (c.op = 0x8 → c.nbits < 2 ^ cfg.bitcountWidth → c.src < 2 ^ cfg.addrWidth → c.dst < 2 ^ cfg.addrWidth →
      decode cfg c = .ok (.reflectBits c.nbits c.src c.dst)) ∧
    (0x9 ≤ c.op.toNat → ∃ e, decode cfg c = .error e)

/-- R61, R62: K = 0 is a fixed-width reflect of width `8 · 2^W`, signed by S; K = 1 is the buffer reflect when S and W
are zero, and rejected otherwise. -/
def Obligations.OpSubfieldsDecode : Prop :=
  ∀ cfg c,
    (c.op.getLsbD 3 = false → ∃ N mk, FixedForm N mk ∧ N = 8 * 2 ^ (c.op.extractLsb' 0 2).toNat ∧
      opWidth c.op = N ∧ decode cfg c = .ok (mk c.a) ∧
      (c.op.getLsbD 2 = true ↔ ∃ a, mk a = .reflectS8 a ∨ mk a = .reflectS16 a ∨ mk a = .reflectS32 a ∨
        mk a = .reflectS64 a)) ∧
    (c.op.getLsbD 3 = true →
      (c.op.extractLsb' 0 3 = 0 → ∃ n src dst, decode cfg c = .ok (.reflectBits n src dst)) ∧
        (c.op.extractLsb' 0 3 ≠ 0 → ∃ e, decode cfg c = .error e))

/-- A few transactions written out bit by bit from R60 to R63, in the model's own layout of the five fields (log entry
2), decode to the instructions they stand for (95_test_vectors.md section 4). -/
def Obligations.WrittenOutCommandsDecode : Prop :=
  decodeWord ⟨16, 16⟩ (0b0010 + 2 ^ 4 * 0x12345678) = .ok (.reflectU32 0x12345678) ∧
  decodeWord ⟨16, 16⟩ (0b0100 + 2 ^ 4 * 0xFE) = .ok (.reflectS8 0xFE) ∧
  decodeWord ⟨16, 16⟩ (0b1000 + 2 ^ 68 * 0x0020 + 2 ^ 84 * 0x0100 + 2 ^ 100 * 0x0200) =
    .ok (.reflectBits 32 0x100 0x200) ∧
  decodeWord ⟨8, 12⟩ (0b1000 + 2 ^ 68 * 24 + 2 ^ 80 * 0xFE + 2 ^ 88 * 0x00) = .ok (.reflectBits 24 0xFE 0) ∧
  decodeWord ⟨16, 16⟩ 0b1010 = .error (.reservedOp 0xA)

/-- Every well-formed instruction, with every operand its port admits and under all parameters, is read back from its
own transaction (R60, R63, R70; the layout of log entry 2). -/
def Obligations.DecodeEncodeAgree : Prop :=
  ∀ cfg i, i.wellFormed cfg = true → decodeWord cfg (encodeWord cfg i) = .ok i

/-- R29: two commands that differ only in fields their OP ignores make the same step, in every state. A step that
leaves the command in flight (a host move) leaves each its own. -/
def Obligations.IgnoredFieldsAffectNothing : Prop :=
  ∀ (s : State) (c c' : Command), c.op = c'.op → (c.op.toNat < 0x8 → c.a = c'.a) →
    (c.op = 0x8 → c.nbits = c'.nbits ∧ c.src = c'.src ∧ c.dst = c'.dst) →
    ((∀ m, s.inbox.head? ≠ some (.meanwhile m)) → step { s with port := some c } = step { s with port := some c' }) ∧
      ∀ m, s.inbox.head? = some (.meanwhile m) →
        (∀ t, step { s with port := some c } = .next t → step { s with port := some c' } = .next { t with port := some c' }) ∧
          ∀ f, step { s with port := some c } = .fault f → step { s with port := some c' } = .fault f

/-- A step with a command in flight, and nothing of the host's landing before it, is `exec` of the decoded instruction,
and nothing is added around it (R31, R52). Placing a transaction puts exactly that command there. -/
def Obligations.StepRunsDecodedCommand : Prop :=
  (∀ s c i, RunsNext s c → decode s.cfg c = .ok i → step s = exec i s) ∧
  ∀ (s : State) (nbits w : Nat) (i : Instr), decodeWord s.cfg (w % 2 ^ nbits) = .ok i →
    step (s.withFetchWord nbits w) = exec i (s.withFetchWord nbits w)

/-- R28: every command gets exactly one response, of the kind of its operation, or a fault; then no command is in
flight. -/
def Obligations.OneResponsePerCommand : Prop :=
  ∀ s c, RunsNext s c → ∃ t r, step s = .next t ∧ t.port = none ∧ t.responses = s.responses ++ [r] ∧
    t.reads = s.reads ∧ t.inbox = s.inbox ∧
    ((∃ code, r = .fault code) ∨ (c.op.toNat < 0x8 ∧ ∃ y, r = .value y) ∨ (c.op = 0x8 ∧ r = .done))

/-- R42, R52, R171: a command the host issues is put on the port with its two predicates, and the step after that
answers it, exactly once, if the host neither resets nor moves meanwhile. -/
def Obligations.IssuedCommandIsAnswered : Prop :=
  ∀ s c rd wr rest, s.port = none → s.inbox = .issue c rd wr :: rest → rest.head? ≠ some .resetMeanwhile →
    (∀ m, rest.head? ≠ some (.meanwhile m)) → ∃ t u r,
      step s = .next t ∧ t = { s with port := some c, readable := rd, writable := wr, inbox := rest } ∧
        step t = .next u ∧ u.port = none ∧ u.inbox = rest ∧ u.responses = s.responses ++ [r]

/-- R161: reset sets STATUS to 0x00 and leaves no command in flight; with no REFLECT.BITS command in flight it changes
nothing else of the machine (the model's own count of log entry 23 aside), and with one it changes no byte outside that
command's output region. -/
def Obligations.ResetClearsStatus : Prop :=
  ∀ s rest, ResetLands s rest → ∃ t, step s = .next t ∧ t.status = 0x00 ∧ t.port = none ∧
    ((∀ c, s.port = some c → c.op ≠ 0x8) →
      t = { s with status := 0x00, port := none, inbox := rest, abandoned := t.abandoned }) ∧
    ∀ a, readByte t.dmem a ≠ readByte s.dmem a → ∃ c n src dst, s.port = some c ∧
      decode s.cfg c = .ok (.reflectBits n src dst) ∧ dst ≤ a ∧ a < dst + (n + 7) / 8

/-- R160: the host may reset before a command in flight is answered, which leaves it without a response, or after, where
the response is delivered first and the reset then clears STATUS. The two spellings of a reset are log entry 10's. -/
def Obligations.ResetBeforeOrAfterResponse : Prop :=
  ∀ s c rest, s.port = some c →
    (s.inbox = .resetMeanwhile :: rest → ∃ t, step s = .next t ∧ t.status = 0x00 ∧ t.port = none ∧
      t.responses = s.responses ∧ t.inbox = rest ∧ t.abandoned = s.abandoned + 1) ∧
    (s.inbox = .reset :: rest → ∃ t r, step s = .next t ∧ t.port = none ∧ t.responses = s.responses ++ [r] ∧
      t.abandoned = s.abandoned ∧ step t = .next { t with status := 0x00, inbox := rest })

/-- R162: a reset while a command is in flight: no response; every byte of the output region of a REFLECT.BITS command
is a free byte, whatever its checks would have said and whatever STATUS held; any other command leaves DMEM as it was.
The free bytes are those of log entry 7, and the counter they are drawn with may hold any value; a region that runs past
the end of DMEM has no bytes there (log entry 8). -/
def Obligations.InterruptingReset : Prop :=
  ∀ s c rest, s.port = some c → s.inbox = .resetMeanwhile :: rest → ∃ t,
    step s = .next t ∧ t.status = 0x00 ∧ t.port = none ∧ t.responses = s.responses ∧ t.inbox = rest ∧
    (c.op ≠ 0x8 → t.dmem = s.dmem) ∧
    ∀ n src dst, BitsCommand s.cfg c n src dst →
      (∀ a, ¬(dst ≤ a ∧ a < dst + (n + 7) / 8) → readByte t.dmem a = readByte s.dmem a) ∧
      ∀ k < (n + 7) / 8, dst + k < 2 ^ s.cfg.addrWidth →
        readByte t.dmem (dst + k) = some (Config.freeByte (s.draws + k))

/-- Every step counts commands right (R28, R160): an issue adds one, and each command issued is answered, in flight, or
left without a response by a reset (the count of log entry 23). -/
def Obligations.EveryCommandIsCounted : Prop :=
  ∀ s t, step s = .next t →
    ((s.port = none ∧ ∃ c rd wr rest, s.inbox = .issue c rd wr :: rest) → commandsIssued t = commandsIssued s + 1) ∧
    (¬(s.port = none ∧ ∃ c rd wr rest, s.inbox = .issue c rd wr :: rest) → commandsIssued t = commandsIssued s)

/-- R172: a run ends where every command issued has its response and no issue is to come; it has one end, at the first
such state, so what the host does after it changes neither the end nor whether the run is a faulted one (log entry 22);
and a run in which a reset has left a command unanswered has no end. -/
def Obligations.RunEndsOnce : Prop :=
  ∀ s, (RunOver s → ∀ fuel, runEnd fuel s = some s) ∧
    (∀ fuel e, runEnd fuel s = some e →
      (e.port = none ∧ e.abandoned = 0 ∧ ∀ act ∈ e.inbox, ∀ c rd wr, act ≠ .issue c rd wr) ∧
        ∀ fuel' e', runEnd fuel' s = some e' → e' = e) ∧
    ¬(SafeRun s ∧ FaultedRun s) ∧
    ∀ fuel, (s.abandoned ≠ 0 ∨ s.port.isSome = true ∧ s.inbox.head? = some .resetMeanwhile) → runEnd fuel s = none

/-- R56, R171: with a command in flight, a host read or write of DMEM outside the command's regions happens and leaves
the command in flight; one inside them is outside the spec and stops the run (the model's choice, log entry 10). -/
def Obligations.HostDutyInFlight : Prop :=
  ∀ s c a m rest, s.port = some c → s.inbox = .meanwhile m :: rest → AccessTo m a →
    (c.op ≠ 0x8 → a < 2 ^ s.cfg.addrWidth → AccessDone s m rest) ∧
    ∀ n src dst, BitsCommand s.cfg c n src dst →
      (((src ≤ a ∧ a < src + (n + 7) / 8) ∨ (dst ≤ a ∧ a < dst + (n + 7) / 8)) →
        step s = .fault (.hostDutyBroken a)) ∧
      (¬((src ≤ a ∧ a < src + (n + 7) / 8) ∨ (dst ≤ a ∧ a < dst + (n + 7) / 8)) → a < 2 ^ s.cfg.addrWidth →
        AccessDone s m rest)

/-- R48: DMEM is plain memory: after the host writes v at a, a read of b gives v if b is a and else what b held, a read
changes no byte, and reading twice gives the same. -/
def Obligations.DmemIsPlainMemory : Prop :=
  ∀ s a v b rest, s.port = none → a < 2 ^ s.cfg.addrWidth → b < 2 ^ s.cfg.addrWidth →
    s.inbox = .move (.dmemWrite a v) :: .move (.dmemRead b) :: .move (.dmemRead b) :: rest → ∃ t1 t2 t3 x,
      step s = .next t1 ∧ step t1 = .next t2 ∧ step t2 = .next t3 ∧ t3.dmem = t1.dmem ∧
        t3.reads = s.reads ++ [.byte b x, .byte b x] ∧ t3.inbox = rest ∧
        x = if b = a then some v else readByte s.dmem b

/-- R40: DMEM has no address from `2^ADDR_WIDTH` on, so a host read or write there stops the run (the model's choice, log
entry 11): with no command in flight, or with one in flight and the address outside its regions. -/
def Obligations.HostAccessOutsideDmemStops : Prop :=
  ∀ s a m rest, 2 ^ s.cfg.addrWidth ≤ a → AccessTo m a →
    (s.port = none ∧ (s.inbox = .move m :: rest ∨ s.inbox = .meanwhile m :: rest) ∨
      ∃ c, s.port = some c ∧ s.inbox = .meanwhile m :: rest ∧
        ∀ n src dst, decode s.cfg c = .ok (.reflectBits n src dst) →
          ¬((src ≤ a ∧ a < src + (n + 7) / 8) ∨ (dst ≤ a ∧ a < dst + (n + 7) / 8))) →
    step s = .fault (.noSuchAddress a)

/-- R40, R161, R162: DMEM changes only by a host write that happens in the step, by the REFLECT.BITS command in flight,
which the step answers `Done`, or by a reset that interrupts one; the last two only inside its output region. -/
def Obligations.DmemChangesOnlyByHostOrBits : Prop :=
  ∀ s t a, step s = .next t → readByte t.dmem a ≠ readByte s.dmem a →
    (∃ v rest, s.port = none ∧ s.inbox = .move (.dmemWrite a v) :: rest ∨ s.inbox = .meanwhile (.dmemWrite a v) :: rest) ∨
      ∃ c n src dst, s.port = some c ∧ decode s.cfg c = .ok (.reflectBits n src dst) ∧ t.port = none ∧
        (dst ≤ a ∧ a < dst + (n + 7) / 8) ∧
        (NotFaulted s ∧ t.responses = s.responses ++ [.done] ∨
          t.responses = s.responses ∧ ∃ rest, s.inbox = .resetMeanwhile :: rest)

/-- R71: `lut.read b` stands for `reflect.u8 b` and returns `Value(zext_64(T[b]))`. -/
def Obligations.LutReadReturnsEntry : Prop :=
  ∀ b ≤ 255, lutRead b = some (.reflectU8 (BitVec.ofNat 64 b)) ∧ ∀ s, NotFaulted s →
    exec (.reflectU8 (BitVec.ofNat 64 b)) s = .next { s with
      port := none
      responses := s.responses ++ [.value ((tableRead (BitVec.ofNat 8 b)).setWidth 64)] }

/-- A negative operand `-v` of a signed form stands for its N-bit two's-complement pattern, zero-extended, whose signed
reading is `-v` again (R70, R7). -/
def Obligations.SignedOperandPattern : Prop :=
  ∀ N v, N ∈ [8, 16, 32, 64] → 0 < v → v ≤ 2 ^ (N - 1) → ∃ w : PortWord,
    signedOperand N (.negative v) = some w ∧ w.toNat = 2 ^ N - v ∧ signedReading (w.setWidth N) = -(v : Int)

/-! ## Invariants -/

/-- The state after reset, for any legal parameters, legal DMEM and coming host actions, meets the invariant (R4, R25,
R30, R40). -/
def Obligations.ResetMeetsInvariant : Prop :=
  Legal State.reset ∧ ∀ cfg dmem inbox, cfg.wf → Memory.wf dmem → (∀ c ∈ dmem, c.1 < 2 ^ cfg.addrWidth) →
    Legal (State.afterReset cfg dmem inbox)

/-- Every step keeps the invariant: legal parameters, a legal STATUS, and a canonical DMEM inside its address space (R4,
R25, R40, R50); and no step changes the parameters. -/
def Obligations.StepKeepsInvariant : Prop :=
  ∀ s t, Legal s → step s = .next t → Legal t ∧ t.cfg = s.cfg
end

