-- ==== Sys2Proof/Laws/State.lean ====
section
/-! SUPPORT. What each named update of State does to each field, one lemma per field per update. -/

namespace Sys2Proof.Machine

variable (s : State)

@[simp] theorem answered_cfg (r : Response) : (answered r s).cfg = s.cfg := rfl
@[simp] theorem answered_status (r : Response) : (answered r s).status = s.status := rfl
@[simp] theorem answered_dmem (r : Response) : (answered r s).dmem = s.dmem := rfl
@[simp] theorem answered_port (r : Response) : (answered r s).port = none := rfl
@[simp] theorem answered_readable (r : Response) : (answered r s).readable = s.readable := rfl
@[simp] theorem answered_writable (r : Response) : (answered r s).writable = s.writable := rfl
@[simp] theorem answered_responses (r : Response) : (answered r s).responses = s.responses ++ [r] := rfl
@[simp] theorem answered_reads (r : Response) : (answered r s).reads = s.reads := rfl
@[simp] theorem answered_inbox (r : Response) : (answered r s).inbox = s.inbox := rfl
@[simp] theorem answered_events (r : Response) : (answered r s).events = s.events := rfl
@[simp] theorem answered_draws (r : Response) : (answered r s).draws = s.draws := rfl
@[simp] theorem answered_abandoned (r : Response) : (answered r s).abandoned = s.abandoned := rfl

@[simp] theorem withStatus_cfg (v : BitVec 8) : (withStatus v s).cfg = s.cfg := rfl
@[simp] theorem withStatus_status (v : BitVec 8) : (withStatus v s).status = v := rfl
@[simp] theorem withStatus_dmem (v : BitVec 8) : (withStatus v s).dmem = s.dmem := rfl
@[simp] theorem withStatus_port (v : BitVec 8) : (withStatus v s).port = s.port := rfl
@[simp] theorem withStatus_readable (v : BitVec 8) : (withStatus v s).readable = s.readable := rfl
@[simp] theorem withStatus_writable (v : BitVec 8) : (withStatus v s).writable = s.writable := rfl
@[simp] theorem withStatus_responses (v : BitVec 8) : (withStatus v s).responses = s.responses := rfl
@[simp] theorem withStatus_reads (v : BitVec 8) : (withStatus v s).reads = s.reads := rfl
@[simp] theorem withStatus_inbox (v : BitVec 8) : (withStatus v s).inbox = s.inbox := rfl
@[simp] theorem withStatus_events (v : BitVec 8) : (withStatus v s).events = s.events := rfl
@[simp] theorem withStatus_draws (v : BitVec 8) : (withStatus v s).draws = s.draws := rfl
@[simp] theorem withStatus_abandoned (v : BitVec 8) : (withStatus v s).abandoned = s.abandoned := rfl

@[simp] theorem withBuffer_cfg (m : Memory) (es : List Access) : (withBuffer m es s).cfg = s.cfg := rfl
@[simp] theorem withBuffer_status (m : Memory) (es : List Access) : (withBuffer m es s).status = s.status := rfl
@[simp] theorem withBuffer_dmem (m : Memory) (es : List Access) : (withBuffer m es s).dmem = m := rfl
@[simp] theorem withBuffer_port (m : Memory) (es : List Access) : (withBuffer m es s).port = s.port := rfl
@[simp] theorem withBuffer_readable (m : Memory) (es : List Access) : (withBuffer m es s).readable = s.readable := rfl
@[simp] theorem withBuffer_writable (m : Memory) (es : List Access) : (withBuffer m es s).writable = s.writable := rfl
@[simp] theorem withBuffer_responses (m : Memory) (es : List Access) : (withBuffer m es s).responses = s.responses := rfl
@[simp] theorem withBuffer_reads (m : Memory) (es : List Access) : (withBuffer m es s).reads = s.reads := rfl
@[simp] theorem withBuffer_inbox (m : Memory) (es : List Access) : (withBuffer m es s).inbox = s.inbox := rfl
@[simp] theorem withBuffer_events (m : Memory) (es : List Access) : (withBuffer m es s).events = s.events ++ es := rfl
@[simp] theorem withBuffer_draws (m : Memory) (es : List Access) : (withBuffer m es s).draws = s.draws := rfl
@[simp] theorem withBuffer_abandoned (m : Memory) (es : List Access) : (withBuffer m es s).abandoned = s.abandoned := rfl

@[simp] theorem withInbox_cfg (rest : List HostAction) : (withInbox rest s).cfg = s.cfg := rfl
@[simp] theorem withInbox_status (rest : List HostAction) : (withInbox rest s).status = s.status := rfl
@[simp] theorem withInbox_dmem (rest : List HostAction) : (withInbox rest s).dmem = s.dmem := rfl
@[simp] theorem withInbox_port (rest : List HostAction) : (withInbox rest s).port = s.port := rfl
@[simp] theorem withInbox_readable (rest : List HostAction) : (withInbox rest s).readable = s.readable := rfl
@[simp] theorem withInbox_writable (rest : List HostAction) : (withInbox rest s).writable = s.writable := rfl
@[simp] theorem withInbox_responses (rest : List HostAction) : (withInbox rest s).responses = s.responses := rfl
@[simp] theorem withInbox_reads (rest : List HostAction) : (withInbox rest s).reads = s.reads := rfl
@[simp] theorem withInbox_inbox (rest : List HostAction) : (withInbox rest s).inbox = rest := rfl
@[simp] theorem withInbox_events (rest : List HostAction) : (withInbox rest s).events = s.events := rfl
@[simp] theorem withInbox_draws (rest : List HostAction) : (withInbox rest s).draws = s.draws := rfl
@[simp] theorem withInbox_abandoned (rest : List HostAction) : (withInbox rest s).abandoned = s.abandoned := rfl

@[simp] theorem resetBlock_cfg : (resetBlock s).cfg = s.cfg := rfl
@[simp] theorem resetBlock_status : (resetBlock s).status = 0x00 := rfl
@[simp] theorem resetBlock_dmem : (resetBlock s).dmem = s.dmem := rfl
@[simp] theorem resetBlock_port : (resetBlock s).port = none := rfl
@[simp] theorem resetBlock_readable : (resetBlock s).readable = s.readable := rfl
@[simp] theorem resetBlock_writable : (resetBlock s).writable = s.writable := rfl
@[simp] theorem resetBlock_responses : (resetBlock s).responses = s.responses := rfl
@[simp] theorem resetBlock_reads : (resetBlock s).reads = s.reads := rfl
@[simp] theorem resetBlock_inbox : (resetBlock s).inbox = s.inbox := rfl
@[simp] theorem resetBlock_events : (resetBlock s).events = s.events := rfl
@[simp] theorem resetBlock_draws : (resetBlock s).draws = s.draws := rfl
@[simp] theorem resetBlock_abandoned : (resetBlock s).abandoned = s.abandoned + inFlightCount s := rfl

@[simp] theorem issueCommand_cfg (c : Command) (rd wr : List Region) : (issueCommand c rd wr s).cfg = s.cfg := rfl
@[simp] theorem issueCommand_status (c : Command) (rd wr : List Region) : (issueCommand c rd wr s).status = s.status := rfl
@[simp] theorem issueCommand_dmem (c : Command) (rd wr : List Region) : (issueCommand c rd wr s).dmem = s.dmem := rfl
@[simp] theorem issueCommand_port (c : Command) (rd wr : List Region) : (issueCommand c rd wr s).port = some c := rfl
@[simp] theorem issueCommand_readable (c : Command) (rd wr : List Region) : (issueCommand c rd wr s).readable = rd := rfl
@[simp] theorem issueCommand_writable (c : Command) (rd wr : List Region) : (issueCommand c rd wr s).writable = wr := rfl
@[simp] theorem issueCommand_responses (c : Command) (rd wr : List Region) : (issueCommand c rd wr s).responses = s.responses := rfl
@[simp] theorem issueCommand_reads (c : Command) (rd wr : List Region) : (issueCommand c rd wr s).reads = s.reads := rfl
@[simp] theorem issueCommand_inbox (c : Command) (rd wr : List Region) : (issueCommand c rd wr s).inbox = s.inbox := rfl
@[simp] theorem issueCommand_events (c : Command) (rd wr : List Region) : (issueCommand c rd wr s).events = s.events := rfl
@[simp] theorem issueCommand_draws (c : Command) (rd wr : List Region) : (issueCommand c rd wr s).draws = s.draws := rfl
@[simp] theorem issueCommand_abandoned (c : Command) (rd wr : List Region) : (issueCommand c rd wr s).abandoned = s.abandoned := rfl

@[simp] theorem placeCommand_cfg (c : Command) : (placeCommand c s).cfg = s.cfg := rfl
@[simp] theorem placeCommand_status (c : Command) : (placeCommand c s).status = s.status := rfl
@[simp] theorem placeCommand_dmem (c : Command) : (placeCommand c s).dmem = s.dmem := rfl
@[simp] theorem placeCommand_port (c : Command) : (placeCommand c s).port = some c := rfl
@[simp] theorem placeCommand_readable (c : Command) : (placeCommand c s).readable = s.readable := rfl
@[simp] theorem placeCommand_writable (c : Command) : (placeCommand c s).writable = s.writable := rfl
@[simp] theorem placeCommand_responses (c : Command) : (placeCommand c s).responses = s.responses := rfl
@[simp] theorem placeCommand_reads (c : Command) : (placeCommand c s).reads = s.reads := rfl
@[simp] theorem placeCommand_inbox (c : Command) : (placeCommand c s).inbox = s.inbox.dropWhile landsInFlight := rfl
@[simp] theorem placeCommand_events (c : Command) : (placeCommand c s).events = s.events := rfl
@[simp] theorem placeCommand_draws (c : Command) : (placeCommand c s).draws = s.draws := rfl
@[simp] theorem placeCommand_abandoned (c : Command) : (placeCommand c s).abandoned = s.abandoned := rfl

@[simp] theorem drawByte_cfg (a : Nat) : (drawByte s a).cfg = s.cfg := rfl
@[simp] theorem drawByte_status (a : Nat) : (drawByte s a).status = s.status := rfl
@[simp] theorem drawByte_dmem (a : Nat) : (drawByte s a).dmem = writeByte s.dmem a (Config.freeByte s.draws) := rfl
@[simp] theorem drawByte_port (a : Nat) : (drawByte s a).port = s.port := rfl
@[simp] theorem drawByte_readable (a : Nat) : (drawByte s a).readable = s.readable := rfl
@[simp] theorem drawByte_writable (a : Nat) : (drawByte s a).writable = s.writable := rfl
@[simp] theorem drawByte_responses (a : Nat) : (drawByte s a).responses = s.responses := rfl
@[simp] theorem drawByte_reads (a : Nat) : (drawByte s a).reads = s.reads := rfl
@[simp] theorem drawByte_inbox (a : Nat) : (drawByte s a).inbox = s.inbox := rfl
@[simp] theorem drawByte_events (a : Nat) : (drawByte s a).events = s.events := rfl
@[simp] theorem drawByte_draws (a : Nat) : (drawByte s a).draws = s.draws + 1 := rfl
@[simp] theorem drawByte_abandoned (a : Nat) : (drawByte s a).abandoned = s.abandoned := rfl

@[simp] theorem inFlightCount_none (h : s.port = none) : inFlightCount s = 0 := by simp [inFlightCount, h]
@[simp] theorem inFlightCount_some (c : Command) (h : s.port = some c) : inFlightCount s = 1 := by simp [inFlightCount, h]
@[simp] theorem inFlightCount_withInbox (rest : List HostAction) : inFlightCount (withInbox rest s) = inFlightCount s := rfl

@[simp] theorem faulted_answered (r : Response) : faulted (answered r s) = faulted s := rfl
@[simp] theorem fcode_answered (r : Response) : fcode (answered r s) = fcode s := rfl
@[simp] theorem faulted_withBuffer (m : Memory) (es : List Access) : faulted (withBuffer m es s) = faulted s := rfl
@[simp] theorem faulted_withInbox (rest : List HostAction) : faulted (withInbox rest s) = faulted s := rfl
@[simp] theorem fcode_withInbox (rest : List HostAction) : fcode (withInbox rest s) = fcode s := rfl
@[simp] theorem faulted_resetBlock : faulted (resetBlock s) = false := by simp [faulted, resetBlock]
@[simp] theorem fcode_resetBlock : fcode (resetBlock s) = 0 := by simp [fcode, resetBlock]

end Sys2Proof.Machine
end

