-- ==== Sys2Proof/Laws/Ops.lean ====
section
/-! SUPPORT. What each shared operation can do: bit reversal, admission, the response, fault entry, the FAULTED state
and the free bytes. -/

namespace Sys2Proof.Machine

/-! ## Bits -/

theorem getLsbD_rev {N : Nat} (v : BitVec N) (i : Nat) : (rev v).getLsbD i = (decide (i < N) && v.getLsbD (N - 1 - i)) := by
  rw [rev, BitVec.getLsbD_reverse, BitVec.getMsbD_eq_getLsbD]

@[simp] theorem rev_rev {N : Nat} (v : BitVec N) : rev (rev v) = v := by
  simp [rev]

theorem getLsbD_zext {N M : Nat} (v : BitVec N) (i : Nat) : (zext M v).getLsbD i = (decide (i < M) && v.getLsbD i) := by
  rw [zext, BitVec.getLsbD_setWidth]

theorem getLsbD_operand (N : Nat) (a : PortWord) (i : Nat) :
    (operand N a).getLsbD i = (decide (i < N) && a.getLsbD i) := by
  rw [operand, BitVec.getLsbD_setWidth]

theorem inSpan_iff {base len a : Nat} : inSpan base len a = true ↔ base ≤ a ∧ a < base + len := by
  simp [inSpan]

theorem ceil8_eq (n : Nat) : ceil8 n = completeBytes n + if remainderBits n = 0 then 0 else 1 := by
  unfold ceil8 completeBytes remainderBits
  split <;> omega

/-! ## Admission (R42) -/

theorem admits_iff {rs : List Region} {a : Nat} :
    admits rs a = true ↔ ∃ r ∈ rs, r.base ≤ a ∧ a < r.base + r.size := by
  simp [admits, inSpan_iff]

theorem readableAt_iff {s : State} {a : Nat} :
    readableAt s a = true ↔ (∃ v, readByte s.dmem a = some v) ∧ ∃ r ∈ s.readable, r.base ≤ a ∧ a < r.base + r.size := by
  simp only [readableAt, Bool.and_eq_true, admits_iff, Option.isSome_iff_exists]

theorem writableAt_iff {s : State} {a : Nat} :
    writableAt s a = true ↔ ∃ r ∈ s.writable, r.base ≤ a ∧ a < r.base + r.size := admits_iff

/-! ## Responses and faults -/

theorem respond_eq (r : Response) (s : State) :
    respond r s = .next { s with port := none, responses := s.responses ++ [r] } := rfl

theorem raiseFault_eq (code : FaultCode) (s : State) :
    raiseFault code s = .next { s with
      port := none, status := faultStatus code, responses := s.responses ++ [.fault (faultCodeBits code)] } := rfl

theorem unlessFaulted_of_faulted {s : State} {run : State → Result} (h : faulted s = true) :
    unlessFaulted s run = respond (.fault (fcode s)) s := by
  simp [unlessFaulted, h]

theorem unlessFaulted_of_not {s : State} {run : State → Result} (h : faulted s = false) :
    unlessFaulted s run = run s := by
  simp [unlessFaulted, h]

/-- Fault entry leaves FAULTED = 1, the code in FCODE and zeros above (R145). -/
theorem faultStatus_fields (code : FaultCode) :
    (faultStatus code).getLsbD 0 = true ∧ (faultStatus code).extractLsb' 1 3 = faultCodeBits code ∧
      (faultStatus code).extractLsb' 4 4 = 0 := by
  cases code <;> decide

/-! ## Free bytes (R162) -/

/-- Drawing a span changes DMEM and the draw counter only. -/
theorem drawSpan_frame (dst len : Nat) (s : State) :
    ∃ m d, drawSpan dst len s = { s with dmem := m, draws := d } := by
  induction len with
  | zero => exact ⟨s.dmem, s.draws, rfl⟩
  | succ len ih =>
    obtain ⟨m, d, h⟩ := ih
    refine ⟨writeByte m (dst + len) (Config.freeByte d), d + 1, ?_⟩
    simp only [drawSpan] at h
    simp only [drawSpan, List.range_succ, List.foldl_append, h, List.foldl_cons, List.foldl_nil]
    rfl

/-- What a drawn span reads as: free bytes inside, the old bytes outside. -/
theorem drawSpan_spec (dst len : Nat) (s : State) :
    (drawSpan dst len s).draws = s.draws + len ∧
      ∀ a, readByte (drawSpan dst len s).dmem a =
        if dst ≤ a ∧ a < dst + len then some (Config.freeByte (s.draws + (a - dst))) else readByte s.dmem a := by
  induction len with
  | zero => exact ⟨rfl, fun a => by rw [if_neg (by omega)]; rfl⟩
  | succ len ih =>
    have hs : drawSpan dst (len + 1) s = drawByte (drawSpan dst len s) (dst + len) := by
      simp [drawSpan, List.range_succ]
    rw [hs]
    refine ⟨by rw [drawByte_draws, ih.1]; omega, fun a => ?_⟩
    rw [drawByte_dmem, readByte_writeByte, ih.1, ih.2 a]
    by_cases ha : a = dst + len
    · subst ha; simp
    · rw [if_neg ha]
      by_cases hb : dst ≤ a ∧ a < dst + len
      · rw [if_pos hb, if_pos (by omega)]
      · rw [if_neg hb, if_neg (by omega)]

/-- Drawing keeps the canonical form and adds no address outside the span. -/
theorem drawSpan_mem (dst len : Nat) (s : State) :
    (Memory.wf s.dmem → Memory.wf (drawSpan dst len s).dmem) ∧
      ∀ c ∈ (drawSpan dst len s).dmem, c ∈ s.dmem ∨ (dst ≤ c.1 ∧ c.1 < dst + len) := by
  induction len with
  | zero => exact ⟨id, fun c hc => .inl hc⟩
  | succ len ih =>
    have hs : drawSpan dst (len + 1) s = drawByte (drawSpan dst len s) (dst + len) := by
      simp [drawSpan, List.range_succ]
    rw [hs]
    refine ⟨fun h => writeByte_wf (ih.1 h) _ _, fun c hc => ?_⟩
    rw [drawByte_dmem] at hc
    rcases mem_writeByte hc with rfl | hc
    · exact .inr ⟨by show dst ≤ dst + len; omega, by show dst + len < _; omega⟩
    · exact (ih.2 c hc).imp_right fun h => ⟨h.1, by omega⟩

end Sys2Proof.Machine
end

