-- ==== Sys2Proof/Laws/Buffer.lean ====
section
/-! SUPPORT. What the accesses, the checks and the steps of REFLECT.BITS can do. -/

namespace Sys2Proof.Machine

/-- An admitted read (R42) gives the byte and is recorded. -/
theorem memRead_eq_some {s : State} {c c' : BitsRun} {a : Nat} {v : Byte} :
    memRead s c a = some (v, c') ↔
      (readableAt s a = true ∨ Access.write a ∈ c.events) ∧ readByte c.dmem a = some v ∧
        c' = { c with events := c.events ++ [.read a] } := by
  simp only [memRead, Bool.or_eq_true, List.contains_iff_mem]
  split
  · next h =>
    simp only [h, true_and, Option.map_eq_some_iff, Prod.mk.injEq]
    constructor
    · rintro ⟨w, hw, rfl, rfl⟩; exact ⟨hw, rfl⟩
    · rintro ⟨hw, rfl⟩; exact ⟨v, hw, rfl, rfl⟩
  · next h => simp [h]

/-- An admitted write (R42) sets the byte and is recorded. -/
theorem memWrite_eq_some {s : State} {c c' : BitsRun} {a : Nat} {v : Byte} :
    memWrite s c a v = some c' ↔
      writableAt s a = true ∧ c' = { dmem := writeByte c.dmem a v, events := c.events ++ [.write a] } := by
  simp only [memWrite]
  split
  · next h => simp [h, eq_comm]
  · next h => simp [h]

/-- A loop over `List.range` keeps what each of its rounds keeps. -/
theorem foldlM_range_keeps {σ : Type} {f : σ → Nat → Option σ} {P : σ → Prop} {n : Nat}
    (hf : ∀ c k c', k < n → P c → f c k = some c' → P c') {c c' : σ} (hc : P c)
    (h : (List.range n).foldlM f c = some c') : P c' := by
  induction n generalizing c' with
  | zero => simp at h; exact h ▸ hc
  | succ n ih =>
    rw [List.range_succ, List.foldlM_append] at h
    obtain ⟨d, hd, h⟩ := Option.bind_eq_some_iff.1 h
    have hP := ih (fun c k c' hk => hf c k c' (by omega)) hd
    simp only [List.foldlM_cons, List.foldlM_nil] at h
    obtain ⟨e, he, h⟩ := Option.bind_eq_some_iff.1 h
    cases h
    exact hf d n _ (by omega) hP he

/-- Whatever every admitted read, and every admitted write into the output span, keeps, a whole REFLECT.BITS run
keeps. -/
theorem bitsRun_keeps {n src dst : Nat} {s : State} {c : BitsRun} {P : BitsRun → Prop}
    (hread : ∀ c a v c', P c → memRead s c a = some (v, c') → P c')
    (hwrite : ∀ c a v c', dst ≤ a → a < dst + ceil8 n → P c → memWrite s c a v = some c' → P c')
    (h0 : P { dmem := s.dmem, events := [] }) (h : bitsRun n src dst s = some c) : P c := by
  have hL := ceil8_eq n
  obtain ⟨c1, h1, h⟩ := Option.bind_eq_some_iff.1 h
  obtain ⟨c2, h2, h3⟩ := Option.bind_eq_some_iff.1 h
  have hP1 : P c1 := by
    refine foldlM_range_keeps (fun c k c' hk hc hf => ?_) h0 h1
    obtain ⟨⟨v, d⟩, hr, hw⟩ := Option.bind_eq_some_iff.1 hf
    exact hwrite _ _ _ _ (by omega) (by split at hL <;> omega) (hread _ _ _ _ hc hr) hw
  have hP2 : P c2 := by
    unfold bitsStep2 at h2
    split at h2
    · cases h2; exact hP1
    · next hr0 =>
      obtain ⟨⟨v, d⟩, hr, hw⟩ := Option.bind_eq_some_iff.1 h2
      rw [if_neg hr0] at hL
      exact hwrite _ _ _ _ (by omega) (by omega) (hread _ _ _ _ hP1 hr) hw
  refine foldlM_range_keeps (fun c k c' hk hc hf => ?_) hP2 h3
  obtain ⟨⟨lo, d1⟩, hlo, hf⟩ := Option.bind_eq_some_iff.1 hf
  obtain ⟨⟨hi, d2⟩, hhi, hf⟩ := Option.bind_eq_some_iff.1 hf
  obtain ⟨d3, hw1, hw2⟩ := Option.bind_eq_some_iff.1 hf
  exact hwrite _ _ _ _ (by omega) (by omega)
    (hwrite _ _ _ _ (by omega) (by omega) (hread _ _ _ _ (hread _ _ _ _ hc hlo) hhi) hw1) hw2

/-- A run changes DMEM inside its output span only. -/
theorem bitsRun_outside {n src dst : Nat} {s : State} {c : BitsRun} (h : bitsRun n src dst s = some c) {a : Nat}
    (ha : ¬(dst ≤ a ∧ a < dst + ceil8 n)) : readByte c.dmem a = readByte s.dmem a := by
  refine bitsRun_keeps (P := fun c => readByte c.dmem a = readByte s.dmem a) ?_ ?_ rfl h
  · intro c b v c' hc hr
    obtain ⟨-, -, rfl⟩ := memRead_eq_some.1 hr
    exact hc
  · intro c b v c' hb hb' hc hw
    obtain ⟨-, rfl⟩ := memWrite_eq_some.1 hw
    rw [readByte_writeByte_other _ _ (by rintro rfl; exact ha ⟨hb, hb'⟩), hc]

/-- A run keeps the canonical form and adds no address outside its output span. -/
theorem bitsRun_mem {n src dst : Nat} {s : State} {c : BitsRun} (h : bitsRun n src dst s = some c) :
    (Memory.wf s.dmem → Memory.wf c.dmem) ∧
      ∀ x ∈ c.dmem, x ∈ s.dmem ∨ (dst ≤ x.1 ∧ x.1 < dst + ceil8 n) := by
  refine bitsRun_keeps (P := fun c => (Memory.wf s.dmem → Memory.wf c.dmem) ∧
      ∀ x ∈ c.dmem, x ∈ s.dmem ∨ (dst ≤ x.1 ∧ x.1 < dst + ceil8 n)) ?_ ?_ ⟨id, fun x hx => .inl hx⟩ h
  · intro c b v c' hc hr
    obtain ⟨-, -, rfl⟩ := memRead_eq_some.1 hr
    exact hc
  · intro c b v c' hb hb' hc hw
    obtain ⟨-, rfl⟩ := memWrite_eq_some.1 hw
    refine ⟨fun h => writeByte_wf (hc.1 h) _ _, fun x hx => ?_⟩
    rcases mem_writeByte hx with rfl | hx
    · exact .inr ⟨hb, hb'⟩
    · exact hc.2 x hx

/-! ## The checks (R122) -/

theorem spansInDmem_iff {n src dst : Nat} {s : State} :
    spansInDmem n src dst s = true ↔ src + ceil8 n ≤ 2 ^ s.cfg.addrWidth ∧ dst + ceil8 n ≤ 2 ^ s.cfg.addrWidth := by
  rw [spansInDmem, Bool.and_eq_true, decide_eq_true_iff, decide_eq_true_iff, Config.dmemSize]

theorem inputReadable_iff {n src : Nat} {s : State} :
    inputReadable n src s = true ↔ ∀ k < ceil8 n, readableAt s (src + k) = true := by
  simp [inputReadable]

theorem outputWritable_iff {n dst : Nat} {s : State} :
    outputWritable n dst s = true ↔ ∀ k < ceil8 n, writableAt s (dst + k) = true := by
  simp [outputWritable]

theorem spansOverlap_iff {n src dst : Nat} :
    spansOverlap n src dst = true ↔ 0 < ceil8 n ∧ src ≠ dst ∧ src < dst + ceil8 n ∧ dst < src + ceil8 n := by
  simp [spansOverlap, and_assoc]

/-- No fault: all four checks pass. -/
theorem bitsFault_eq_none {n src dst : Nat} {s : State} :
    bitsFault n src dst s = none ↔
      spansInDmem n src dst s = true ∧ inputReadable n src s = true ∧ outputWritable n dst s = true ∧
        spansOverlap n src dst = false := by
  unfold bitsFault
  cases spansInDmem n src dst s <;> cases inputReadable n src s <;> cases outputWritable n dst s <;>
    cases spansOverlap n src dst <;> simp

/-- BUFFER_BOUNDS: one of checks 1 to 3 fails, whatever check 4 says. -/
theorem bitsFault_eq_bounds {n src dst : Nat} {s : State} :
    bitsFault n src dst s = some .bufferBounds ↔
      spansInDmem n src dst s = false ∨ inputReadable n src s = false ∨ outputWritable n dst s = false := by
  unfold bitsFault
  cases spansInDmem n src dst s <;> cases inputReadable n src s <;> cases outputWritable n dst s <;>
    cases spansOverlap n src dst <;> simp

/-- BUFFER_OVERLAP: checks 1 to 3 pass and check 4 fails. -/
theorem bitsFault_eq_overlap {n src dst : Nat} {s : State} :
    bitsFault n src dst s = some .bufferOverlap ↔
      spansInDmem n src dst s = true ∧ inputReadable n src s = true ∧ outputWritable n dst s = true ∧
        spansOverlap n src dst = true := by
  unfold bitsFault
  cases spansInDmem n src dst s <;> cases inputReadable n src s <;> cases outputWritable n dst s <;>
    cases spansOverlap n src dst <;> simp

/-- REFLECT.BITS always answers a next state: fault entry, or the finished run. -/
theorem reflectBuffer_cases (n src dst : Nat) (s : State) :
    (∃ code, reflectBuffer n src dst s = .next (answered (.fault (faultCodeBits code)) (withStatus (faultStatus code) s))) ∨
      ∃ c, bitsFault n src dst s = none ∧ bitsRun n src dst s = some c ∧
        reflectBuffer n src dst s = .next (answered .done (withBuffer c.dmem c.events s)) := by
  unfold reflectBuffer
  split
  · next code _ => exact .inl ⟨code, rfl⟩
  · next hf =>
    split
    · next c hc => exact .inr ⟨c, hf, hc, rfl⟩
    · exact .inl ⟨.bufferBounds, rfl⟩

end Sys2Proof.Machine
end

