-- ==== Sys2Proof/Laws/Decode.lean ====
section
/-! SUPPORT. What the decoder answers. -/

namespace Sys2Proof

/-- The decoder answers by OP alone: one of nine instructions, or the reserved OP's name. -/
theorem decode_cases (cfg : Config) (c : Command) :
    (c.op = 0 ∧ decode cfg c = .ok (.reflectU8 c.a)) ∨ (c.op = 1 ∧ decode cfg c = .ok (.reflectU16 c.a)) ∨
    (c.op = 2 ∧ decode cfg c = .ok (.reflectU32 c.a)) ∨ (c.op = 3 ∧ decode cfg c = .ok (.reflectU64 c.a)) ∨
    (c.op = 4 ∧ decode cfg c = .ok (.reflectS8 c.a)) ∨ (c.op = 5 ∧ decode cfg c = .ok (.reflectS16 c.a)) ∨
    (c.op = 6 ∧ decode cfg c = .ok (.reflectS32 c.a)) ∨ (c.op = 7 ∧ decode cfg c = .ok (.reflectS64 c.a)) ∨
    (c.op = 8 ∧ decode cfg c = .ok (.reflectBits (c.nbits % 2 ^ cfg.bitcountWidth) (c.src % 2 ^ cfg.addrWidth)
      (c.dst % 2 ^ cfg.addrWidth))) ∨
    (9 ≤ c.op.toNat ∧ decode cfg c = .error (.reservedOp c.op)) := by
  obtain ⟨op, a, nbits, src, dst⟩ := c
  obtain ⟨v, rfl⟩ : ∃ v : Fin 16, op = BitVec.ofFin v := ⟨op.toFin, rfl⟩
  fin_cases v <;> simp [decode]

/-- Every decoded instruction fits the ports. -/
theorem decode_wellFormed {cfg : Config} {c : Command} {i : Instr} (h : decode cfg c = .ok i) :
    i.wellFormed cfg = true := by
  rcases decode_cases cfg c with h' | h' | h' | h' | h' | h' | h' | h' | h' | h' <;> rw [h'.2] at h <;> cases h <;>
    simp [Instr.wellFormed, Nat.mod_lt]

end Sys2Proof
end

