-- ==== Sys2Proof/Laws/FixedWidth.lean ====
section
/-! SUPPORT. What a fixed-width reflect answers, and the bits of its port value. -/

namespace Sys2Proof.Machine

theorem reflectFixed_of_not_faulted {N : Nat} {a : PortWord} {s : State} (h : faulted s = false) :
    reflectFixed N a s = respond (.value (zext 64 (rev (operand N a)))) s := unlessFaulted_of_not h

theorem reflectFixed_of_faulted {N : Nat} {a : PortWord} {s : State} (h : faulted s = true) :
    reflectFixed N a s = respond (.fault (fcode s)) s := unlessFaulted_of_faulted h

/-- Bit i of port Y (R66, R90): operand bit `N−1−i` below N, zero from N on. -/
theorem getLsbD_reflected {N : Nat} (hN : N ≤ 64) (a : PortWord) (i : Nat) :
    (zext 64 (rev (operand N a))).getLsbD i = (decide (i < N) && a.getLsbD (N - 1 - i)) := by
  rw [getLsbD_zext, getLsbD_rev, getLsbD_operand]
  by_cases h : i < N
  · simp [h, show i < 64 by omega, show N - 1 - i < N by omega]
  · simp [h]

end Sys2Proof.Machine
end

