-- ==== Sys2Proof/Laws/PerInstr.lean ====
section
/-! SUPPORT. A statement about every instruction as syntax: its command record decodes back to it (R63, R70). -/

namespace Sys2Proof.Laws.RecordRoundTrip

/-- Decoding an instruction's command record gives it back, under any parameters its operands fit. -/
def Statement (i : Instr) : Prop := ∀ cfg : Config, i.wellFormed cfg = true → decode cfg (encode i) = .ok i

theorem reflectU8 (a : PortWord) : Statement (.reflectU8 a) := fun _ _ => rfl
theorem reflectU16 (a : PortWord) : Statement (.reflectU16 a) := fun _ _ => rfl
theorem reflectU32 (a : PortWord) : Statement (.reflectU32 a) := fun _ _ => rfl
theorem reflectU64 (a : PortWord) : Statement (.reflectU64 a) := fun _ _ => rfl
theorem reflectS8 (a : PortWord) : Statement (.reflectS8 a) := fun _ _ => rfl
theorem reflectS16 (a : PortWord) : Statement (.reflectS16 a) := fun _ _ => rfl
theorem reflectS32 (a : PortWord) : Statement (.reflectS32 a) := fun _ _ => rfl
theorem reflectS64 (a : PortWord) : Statement (.reflectS64 a) := fun _ _ => rfl

theorem reflectBits (n src dst : Nat) : Statement (.reflectBits n src dst) := by
  intro cfg h
  simp only [Instr.wellFormed, decide_eq_true_eq] at h
  obtain ⟨hn, hs, hd⟩ := h
  simp [decode, encode, Nat.mod_eq_of_lt hn, Nat.mod_eq_of_lt hs, Nat.mod_eq_of_lt hd]

end Sys2Proof.Laws.RecordRoundTrip
end

