-- ==== Sys2Proof/Laws/Step.lean ====
section
/-! SUPPORT. What an instruction, a command and a step can do: one inversion lemma each. -/

namespace Sys2Proof.Machine

/-- What any instruction answers: the stored code while FAULTED; else a value and nothing else, fault entry, or a
finished REFLECT.BITS run. -/
theorem exec_cases (i : Instr) (s : State) :
    (faulted s = true ∧ exec i s = .next (answered (.fault (fcode s)) s)) ∨
    (∃ y, faulted s = false ∧ exec i s = .next (answered (.value y) s)) ∨
    (∃ code, faulted s = false ∧
      exec i s = .next (answered (.fault (faultCodeBits code)) (withStatus (faultStatus code) s))) ∨
    ∃ n src dst c, i = .reflectBits n src dst ∧ faulted s = false ∧ bitsFault n src dst s = none ∧
      bitsRun n src dst s = some c ∧ exec i s = .next (answered .done (withBuffer c.dmem c.events s)) := by
  by_cases hf : faulted s = true
  · refine .inl ⟨hf, ?_⟩
    cases i <;> exact unlessFaulted_of_faulted hf
  · have hf : faulted s = false := by simpa using hf
    cases i with
    | reflectBits n src dst =>
      have he : exec (.reflectBits n src dst) s = reflectBuffer n src dst s := unlessFaulted_of_not hf
      rw [he]
      rcases reflectBuffer_cases n src dst s with ⟨code, h⟩ | ⟨c, h1, h2, h3⟩
      · exact .inr (.inr (.inl ⟨code, hf, h⟩))
      · exact .inr (.inr (.inr ⟨n, src, dst, c, rfl, hf, h1, h2, h3⟩))
    | _ => exact .inr (.inl ⟨_, hf, unlessFaulted_of_not hf⟩)

/-- What running the command in flight answers. -/
theorem runCommand_cases (cmd : Command) (s : State) :
    (faulted s = true ∧ runCommand cmd s = .next (answered (.fault (fcode s)) s)) ∨
    (∃ y, faulted s = false ∧ runCommand cmd s = .next (answered (.value y) s)) ∨
    (∃ code, faulted s = false ∧
      runCommand cmd s = .next (answered (.fault (faultCodeBits code)) (withStatus (faultStatus code) s))) ∨
    ∃ n src dst c, decode s.cfg cmd = .ok (.reflectBits n src dst) ∧ faulted s = false ∧
      bitsFault n src dst s = none ∧ bitsRun n src dst s = some c ∧
      runCommand cmd s = .next (answered .done (withBuffer c.dmem c.events s)) := by
  unfold runCommand
  split
  · next i hi =>
    rcases exec_cases i s with h | h | h | ⟨n, src, dst, c, rfl, h⟩
    · exact .inl h
    · exact .inr (.inl h)
    · exact .inr (.inr (.inl h))
    · exact .inr (.inr (.inr ⟨n, src, dst, c, hi, h⟩))
  · by_cases hf : faulted s = true
    · exact .inl ⟨hf, unlessFaulted_of_faulted hf⟩
    · have hf : faulted s = false := by simpa using hf
      exact .inr (.inr (.inl ⟨.illegalOp, hf, unlessFaulted_of_not hf⟩))

/-- A host move that happens names an address of DMEM, or none. -/
theorem hostMove_eq_next {m : HostMove} {s t : State} (h : hostMove m s = .next t) :
    t = applyMove m s ∧ ∀ a, moveAddr m = some a → a < s.cfg.dmemSize := by
  unfold hostMove at h
  split at h
  · next hm => cases h; exact ⟨rfl, fun a ha => by simp [hm] at ha⟩
  · next a hm =>
    split at h
    · next ha => cases h; exact ⟨rfl, fun b hb => by rw [hm] at hb; cases hb; exact ha⟩
    · cases h

/-- A host move made in flight that happens keeps out of the command's regions. -/
theorem moveInFlight_eq_next {cmd : Command} {m : HostMove} {s t : State} (h : moveInFlight cmd m s = .next t) :
    hostMove m s = .next t ∧ ∀ a, moveAddr m = some a → inCommandRegion s.cfg cmd a = false := by
  unfold moveInFlight at h
  split at h
  · next hm => exact ⟨h, fun a ha => by simp [hm] at ha⟩
  · next a hm =>
    split at h
    · cases h
    · next ha => exact ⟨h, fun b hb => by rw [hm] at hb; cases hb; simpa using ha⟩

/-- The buffer operands of a command are those of the REFLECT.BITS instruction it decodes to. -/
theorem commandBuffers_eq_some {cfg : Config} {cmd : Command} {n src dst : Nat} :
    commandBuffers cfg cmd = some (n, src, dst) ↔ decode cfg cmd = .ok (.reflectBits n src dst) := by
  unfold commandBuffers
  split
  · next i hi => cases i <;> simp [bufferOperands, hi]
  · next e he => simp [he]

/-- The k-th of the bytes from `base` on is one that the span holds and whose address exists. -/
theorem lt_bytesInDmem_iff {cfg : Config} {base len k : Nat} :
    k < bytesInDmem cfg base len ↔ k < len ∧ base + k < cfg.dmemSize := by
  unfold bytesInDmem
  omega

/-- An interrupting reset is a reset, of a state whose output bytes were drawn if the command is REFLECT.BITS. -/
theorem resetInFlight_cases (cmd : Command) (s : State) :
    (commandBuffers s.cfg cmd = none ∧ resetInFlight cmd s = resetBlock s) ∨
    ∃ n src dst, decode s.cfg cmd = .ok (.reflectBits n src dst) ∧ resetInFlight cmd s = resetBlock
      (drawSpan dst (bytesInDmem s.cfg dst (ceil8 n)) (withBuffer s.dmem [.cut src dst (ceil8 n)] s)) := by
  rcases hb : commandBuffers s.cfg cmd with _ | ⟨n, src, dst⟩
  · exact .inl ⟨rfl, by simp [resetInFlight, hb]⟩
  · exact .inr ⟨n, src, dst, commandBuffers_eq_some.1 hb, by simp [resetInFlight, hb, cutBuffer]⟩

/-- An interrupting reset is a reset of a state that differs at most in DMEM, the access record and the draws, and in
none of them if the command is not REFLECT.BITS. -/
theorem resetInFlight_frame (cmd : Command) (s : State) : ∃ m d es,
    resetInFlight cmd s = resetBlock { s with dmem := m, draws := d, events := es } ∧
      (commandBuffers s.cfg cmd = none → m = s.dmem ∧ d = s.draws ∧ es = s.events) := by
  rcases resetInFlight_cases cmd s with ⟨-, e⟩ | ⟨n, src, dst, hd, e⟩
  · exact ⟨s.dmem, s.draws, s.events, e, fun _ => ⟨rfl, rfl, rfl⟩⟩
  · obtain ⟨m, d, h⟩ := drawSpan_frame dst (bytesInDmem s.cfg dst (ceil8 n)) (withBuffer s.dmem [.cut src dst (ceil8 n)] s)
    exact ⟨m, d, _, by rw [e, h]; rfl, fun h => by rw [commandBuffers_eq_some.2 hd] at h; cases h⟩

/-- What DMEM reads as after an interrupting reset: free bytes in the output region, the old bytes elsewhere. -/
theorem resetInFlight_dmem {cmd : Command} {s : State} {n src dst : Nat}
    (hd : decode s.cfg cmd = .ok (.reflectBits n src dst)) (a : Nat) :
    readByte (resetInFlight cmd s).dmem a =
      if dst ≤ a ∧ a < dst + ceil8 n ∧ a < s.cfg.dmemSize then some (Config.freeByte (s.draws + (a - dst)))
      else readByte s.dmem a := by
  rcases resetInFlight_cases cmd s with ⟨e, -⟩ | ⟨n', src', dst', hd', e⟩
  · rw [commandBuffers_eq_some.2 hd] at e; cases e
  · rw [hd] at hd'; cases hd'
    have hin : (dst ≤ a ∧ a < dst + bytesInDmem s.cfg dst (ceil8 n)) ↔
        (dst ≤ a ∧ a < dst + ceil8 n ∧ a < s.cfg.dmemSize) := by unfold bytesInDmem; omega
    simp [e, (drawSpan_spec _ _ _).2, hin]

/-- What a step that answers a next state did. -/
theorem step_cases {s t : State} (h : step s = .next t) :
    (s.port = none ∧ s.inbox = [] ∧ t = s) ∨
    (∃ act rest, s.port = none ∧ s.inbox = act :: rest ∧ hostAction act (withInbox rest s) = .next t) ∨
    (∃ cmd, s.port = some cmd ∧ runCommand cmd s = .next t) ∨
    (∃ cmd m rest, s.port = some cmd ∧ s.inbox = .meanwhile m :: rest ∧
      moveInFlight cmd m (withInbox rest s) = .next t) ∨
    ∃ cmd rest, s.port = some cmd ∧ s.inbox = .resetMeanwhile :: rest ∧ t = resetInFlight cmd (withInbox rest s) := by
  unfold step stepMachine at h
  split at h
  · next cmd hp =>
    unfold stepInFlight at h
    split at h
    · exact .inr (.inr (.inl ⟨cmd, hp, h⟩))
    · exact .inr (.inr (.inl ⟨cmd, hp, h⟩))
    · exact .inr (.inr (.inl ⟨cmd, hp, h⟩))
    · next m rest hi => exact .inr (.inr (.inr (.inl ⟨cmd, m, rest, hp, hi, h⟩)))
    · exact .inr (.inr (.inl ⟨cmd, hp, h⟩))
    · next rest hi => cases h; exact .inr (.inr (.inr (.inr ⟨cmd, rest, hp, hi, rfl⟩)))
  · next hp =>
    unfold stepIdle at h
    split at h
    · next hi => cases h; exact .inl ⟨hp, hi, rfl⟩
    · next act rest hi => exact .inr (.inl ⟨act, rest, hp, hi, h⟩)

end Sys2Proof.Machine
end

