-- ==== Sys2Proof/Tests/Slice0.lean ====
section
/-! SUPPORT. Tests from the spec's own vectors (95_test_vectors.md), smoke tests of the checks, and for every statement
with hypotheses a witness that meets them. -/

namespace Sys2Proof.Tests

open Machine Claims

/-! ## The table, against the listing of 95_test_vectors.md section 2.1 -/

def listing0 : List Byte :=
  [0x00, 0x80, 0x40, 0xC0, 0x20, 0xA0, 0x60, 0xE0, 0x10, 0x90, 0x50, 0xD0, 0x30, 0xB0, 0x70, 0xF0] ++
  [0x08, 0x88, 0x48, 0xC8, 0x28, 0xA8, 0x68, 0xE8, 0x18, 0x98, 0x58, 0xD8, 0x38, 0xB8, 0x78, 0xF8] ++
  [0x04, 0x84, 0x44, 0xC4, 0x24, 0xA4, 0x64, 0xE4, 0x14, 0x94, 0x54, 0xD4, 0x34, 0xB4, 0x74, 0xF4] ++
  [0x0C, 0x8C, 0x4C, 0xCC, 0x2C, 0xAC, 0x6C, 0xEC, 0x1C, 0x9C, 0x5C, 0xDC, 0x3C, 0xBC, 0x7C, 0xFC] ++
  [0x02, 0x82, 0x42, 0xC2, 0x22, 0xA2, 0x62, 0xE2, 0x12, 0x92, 0x52, 0xD2, 0x32, 0xB2, 0x72, 0xF2] ++
  [0x0A, 0x8A, 0x4A, 0xCA, 0x2A, 0xAA, 0x6A, 0xEA, 0x1A, 0x9A, 0x5A, 0xDA, 0x3A, 0xBA, 0x7A, 0xFA] ++
  [0x06, 0x86, 0x46, 0xC6, 0x26, 0xA6, 0x66, 0xE6, 0x16, 0x96, 0x56, 0xD6, 0x36, 0xB6, 0x76, 0xF6] ++
  [0x0E, 0x8E, 0x4E, 0xCE, 0x2E, 0xAE, 0x6E, 0xEE, 0x1E, 0x9E, 0x5E, 0xDE, 0x3E, 0xBE, 0x7E, 0xFE]

def listing1 : List Byte :=
  [0x01, 0x81, 0x41, 0xC1, 0x21, 0xA1, 0x61, 0xE1, 0x11, 0x91, 0x51, 0xD1, 0x31, 0xB1, 0x71, 0xF1] ++
  [0x09, 0x89, 0x49, 0xC9, 0x29, 0xA9, 0x69, 0xE9, 0x19, 0x99, 0x59, 0xD9, 0x39, 0xB9, 0x79, 0xF9] ++
  [0x05, 0x85, 0x45, 0xC5, 0x25, 0xA5, 0x65, 0xE5, 0x15, 0x95, 0x55, 0xD5, 0x35, 0xB5, 0x75, 0xF5] ++
  [0x0D, 0x8D, 0x4D, 0xCD, 0x2D, 0xAD, 0x6D, 0xED, 0x1D, 0x9D, 0x5D, 0xDD, 0x3D, 0xBD, 0x7D, 0xFD] ++
  [0x03, 0x83, 0x43, 0xC3, 0x23, 0xA3, 0x63, 0xE3, 0x13, 0x93, 0x53, 0xD3, 0x33, 0xB3, 0x73, 0xF3] ++
  [0x0B, 0x8B, 0x4B, 0xCB, 0x2B, 0xAB, 0x6B, 0xEB, 0x1B, 0x9B, 0x5B, 0xDB, 0x3B, 0xBB, 0x7B, 0xFB] ++
  [0x07, 0x87, 0x47, 0xC7, 0x27, 0xA7, 0x67, 0xE7, 0x17, 0x97, 0x57, 0xD7, 0x37, 0xB7, 0x77, 0xF7] ++
  [0x0F, 0x8F, 0x4F, 0xCF, 0x2F, 0xAF, 0x6F, 0xEF, 0x1F, 0x9F, 0x5F, 0xDF, 0x3F, 0xBF, 0x7F, 0xFF]

theorem test_table_is_listing : table = listing0 ++ listing1 := by decide +kernel

/-! ## Well-formedness: one ill-formed term for each check -/

theorem test_wf_refuses_count : (Instr.reflectBits 256 0 0).wellFormed ⟨8, 8⟩ = false := by decide
theorem test_wf_refuses_src : (Instr.reflectBits 0 256 0).wellFormed ⟨8, 9⟩ = false := by decide
theorem test_wf_refuses_dst : (Instr.reflectBits 0 0 256).wellFormed ⟨8, 9⟩ = false := by decide
theorem test_wf_admits_top : (Instr.reflectBits 511 255 255).wellFormed ⟨8, 9⟩ = true := by decide

/-! ## Decoding: the records of 30_encoding.md R63 and 95_test_vectors.md section 4, OP written bit by bit -/

def record (op : BitVec 4) : Command := { op := op, a := 0x12345678, nbits := 0x0020, src := 0x0100, dst := 0x0200 }

theorem test_decode_u8 : decode ⟨16, 16⟩ (record 0b0000) = .ok (.reflectU8 0x12345678) := by decide
theorem test_decode_u16 : decode ⟨16, 16⟩ (record 0b0001) = .ok (.reflectU16 0x12345678) := by decide
theorem test_decode_u32 : decode ⟨16, 16⟩ (record 0b0010) = .ok (.reflectU32 0x12345678) := by decide
theorem test_decode_u64 : decode ⟨16, 16⟩ (record 0b0011) = .ok (.reflectU64 0x12345678) := by decide
theorem test_decode_s8 : decode ⟨16, 16⟩ (record 0b0100) = .ok (.reflectS8 0x12345678) := by decide
theorem test_decode_s16 : decode ⟨16, 16⟩ (record 0b0101) = .ok (.reflectS16 0x12345678) := by decide
theorem test_decode_s32 : decode ⟨16, 16⟩ (record 0b0110) = .ok (.reflectS32 0x12345678) := by decide
theorem test_decode_s64 : decode ⟨16, 16⟩ (record 0b0111) = .ok (.reflectS64 0x12345678) := by decide
theorem test_decode_bits : decode ⟨16, 16⟩ (record 0b1000) = .ok (.reflectBits 32 0x100 0x200) := by decide
theorem test_decode_reserved :
    [0x9, 0xA, 0xB, 0xC, 0xD, 0xE, 0xF].all (fun op => (decode ⟨16, 16⟩ (record op)).toOption.isNone) = true := by decide
theorem test_table_word_u64 : decodeTableWord 8 0b0011 = some (.reflectU64 0) := by decide
theorem test_table_word_bits : decodeTableWord 8 0b1000 = some (.reflectBits 0 0 0) := by decide
theorem test_table_word_reserved : decodeTableWord 8 0b1001 = none := by decide

/-! ## One step of each instruction -/

/-- The state a result holds, if it is a next state. -/
def next? : Result → Option State
  | .next s => some s
  | .fault _ => none
  | .refused _ => none

/-- A machine with 8-bit addresses and counts (95_test_vectors.md section 3.5), its STATUS, DMEM and admitted regions. -/
def machine (status : BitVec 8) (dmem : Memory) (rd wr : List Region) : State :=
  { State.afterReset ⟨8, 8⟩ dmem [] with status := status, readable := rd, writable := wr }

/-- The machine with nothing in DMEM. -/
def bare (status : BitVec 8) : State := machine status [] [] []

/-- What the host sees of a result: the responses and STATUS. -/
def seen (r : Result) : Option (List Response × BitVec 8) := (next? r).map fun t => (t.responses, t.status)

theorem test_u8 : seen (exec (.reflectU8 0x12) (bare 0)) = some ([.value 0x48], 0) := by decide +kernel
theorem test_u8_high_bits_ignored :
    seen (exec (.reflectU8 0xFFFFFFFFFFFFFF01) (bare 0)) = some ([.value 0x80], 0) := by decide +kernel
theorem test_u16 : seen (exec (.reflectU16 0xFFFFFFFFFFFF0001) (bare 0)) = some ([.value 0x8000], 0) := by decide +kernel
theorem test_u32 : seen (exec (.reflectU32 0xAAAAAAAA12345678) (bare 0)) = some ([.value 0x1E6A2C48], 0) := by
  decide +kernel
theorem test_u64 : seen (exec (.reflectU64 0x0123456789ABCDEF) (bare 0)) = some ([.value 0xF7B3D591E6A2C480], 0) := by
  decide +kernel
/-- R98: for 1 the response is 0x80, not the sign-extended value. -/
theorem test_s8_not_sign_extended :
    seen (exec (.reflectS8 0x01) (bare 0)) = some ([.value 0x80], 0) ∧ sext 64 (0x80 : BitVec 8) = 0xFFFFFFFFFFFFFF80 := by
  decide +kernel
theorem test_s16 : seen (exec (.reflectS16 0x00FF) (bare 0)) = some ([.value 0xFF00], 0) := by decide +kernel
theorem test_s32 : seen (exec (.reflectS32 0xDEADBEEF) (bare 0)) = some ([.value 0xF77DB57B], 0) := by decide +kernel
theorem test_s64 : seen (exec (.reflectS64 1) (bare 0)) = some ([.value 0x8000000000000000], 0) := by decide +kernel

/-- The output bytes of a REFLECT.BITS command and its response. -/
def bitsSeen (n src dst : Nat) (s : State) : Option (List (Option Byte) × List Response) :=
  (next? (exec (.reflectBits n src dst) s)).map fun t =>
    ((List.range (ceil8 n)).map fun j => readByte t.dmem (dst + j), t.responses)

/-- Section 3.3, n = 36. -/
theorem test_bits_36 :
    bitsSeen 36 0x10 0x20 (machine 0 [(0x10, 0x12), (0x11, 0x34), (0x12, 0x56), (0x13, 0x78), (0x14, 0x9A)]
      [⟨0x10, 5⟩] [⟨0x20, 5⟩]) = some ([some 0x05, some 0x1E, some 0x6A, some 0x2C, some 0x48], [.done]) := by
  decide +kernel
/-- Section 3.5, identical regions. -/
theorem test_bits_in_place :
    bitsSeen 16 0x10 0x10 (machine 0 [(0x10, 0x10), (0x11, 0x11)] [⟨0x10, 2⟩] [⟨0x10, 2⟩]) =
      some ([some 0x88, some 0x08], [.done]) := by decide +kernel

/-! ## Faults (section 3.5), each one step -/

def low : State := machine 0 [(0x10, 0x10), (0x11, 0x11), (0x12, 0x12)] [⟨0, 256⟩] [⟨0, 256⟩]

theorem test_bounds_before_overlap : seen (exec (.reflectBits 24 0xFE 0xFF) low) = some ([.fault 2], 0x05) := by
  decide +kernel
theorem test_overlap : seen (exec (.reflectBits 16 0x10 0x11) low) = some ([.fault 3], 0x07) := by decide +kernel
theorem test_reserved : seen (step { bare 0 with port := some (record 0xA) }) = some ([.fault 1], 0x03) := by
  decide +kernel
theorem test_sticky : seen (exec (.reflectU8 0x12) (bare 0x03)) = some ([.fault 1], 0x03) := by decide +kernel
theorem test_first_step_runs_bits :
    seen (step (State.reset.withFetchWord 8 0b1000)) = some ([.done], 0x00) := by decide +kernel

/-! ## The assembler (R70, R71; 95_test_vectors.md section 4) -/

/-- `reflect.s8 -2 ; x` (P1). -/
theorem test_assemble_s8 :
    assembleLine ⟨16, 16⟩ ['r', 'e', 'f', 'l', 'e', 'c', 't', '.', 's', '8', ' ', '-', '2', ' ', ';', ' ', 'x'] =
      some (.command (.reflectS8 0xFE)) := by decide +kernel
/-- `reflect.bits 0x0200, 0x0100, 32` (P2): destination, source, count. -/
theorem test_assemble_bits :
    assembleLine ⟨16, 16⟩ ['r', 'e', 'f', 'l', 'e', 'c', 't', '.', 'b', 'i', 't', 's', ' ', '0', 'x', '0', '2', '0', '0',
      ',', ' ', '0', 'x', '0', '1', '0', '0', ',', ' ', '3', '2'] = some (.command (.reflectBits 32 0x100 0x200)) := by
  decide +kernel
/-- Hexadecimal letters; 0xA5 is 165, and a letter is no decimal digit. -/
theorem test_parse_number :
    parseNumber ['0', 'x', 'A', '5'] = some 165 ∧ parseNumber ['0', 'x', 'a', 'f'] = some 175 ∧
      parseNumber ['1', 'a'] = none ∧ parseNumber ['0', 'x', 'g'] = none := by decide +kernel
theorem test_assemble_status_query :
    assembleLine ⟨16, 16⟩ ['s', 't', 'a', 't', 'u', 's', '?'] = some .statusQuery := by decide +kernel

/-! ## Witnesses of the statements' hypotheses -/

/-- A command on the port with no host action to come. -/
def withPort (s : State) (c : Command) : State := { s with port := some c }

theorem runsNext_withPort (s : State) (c : Command) (h : s.inbox = []) : RunsNext (withPort s c) c :=
  ⟨rfl, by simp [withPort, h], by simp [withPort, h]⟩

theorem notFaulted_bare : NotFaulted (bare 0) := by decide
theorem faulted_bare : (bare 0x05).status.getLsbD 0 = true := by decide

/-- TableAlgorithmReversesAllBits: the top bit of eight bytes. -/
theorem witness_top_bit : 63 < 8 * 8 := by decide
/-- Reflect8Result to Reflect64Result: the OP of a record, a state that is not FAULTED, and the boundary bits. -/
theorem witness_fixed_width :
    (record 0x4).op = 0x4 ∧ NotFaulted (bare 0) ∧ 7 < 8 ∧ 8 ≤ 8 ∧ 15 < 16 ∧ 16 ≤ 16 ∧ 31 < 32 ∧ 32 ≤ 32 ∧ 63 < 64 ∧
      64 ≤ 64 := by decide
/-- OperandAndResultZeroExtend: both forms of width 8, and operands that differ in every ignored bit. -/
theorem witness_high_bits :
    FixedForm 8 .reflectU8 ∧ FixedForm 8 .reflectS8 ∧ (0xFFFFFFFFFFFFFF01 : PortWord) ≠ 0x01 ∧
      ∀ i < 8, (0xFFFFFFFFFFFFFF01 : PortWord).getLsbD i = (0x01 : PortWord).getLsbD i := ⟨.u8, .s8, by decide, by decide⟩
/-- FixedWidthOnlyResponds, FixedWidthIsInvolution: a form, and a state of each kind. -/
theorem witness_fixed_form : FixedForm 64 .reflectS64 ∧ NotFaulted (bare 0) ∧ ¬NotFaulted (bare 0x03) :=
  ⟨.s64, by decide, by decide⟩
/-- ReservedOpFaults: the first and the last reserved OP. -/
theorem witness_reserved_op :
    RunsNext (withPort (bare 0) (record 0x9)) (record 0x9) ∧ RunsNext (withPort (bare 0) (record 0xF)) (record 0xF) ∧
      0x9 ≤ (record 0x9).op.toNat ∧ 0x9 ≤ (record 0xF).op.toNat ∧ NotFaulted (withPort (bare 0) (record 0x9)) :=
  ⟨runsNext_withPort _ _ rfl, runsNext_withPort _ _ rfl, by decide, by decide, by decide⟩

/-- Two held input bytes at 0x10, admitted; output at 0x12 and 0x10 admitted. -/
def pair : State := machine 0 [(0x10, 0x88), (0x11, 0x08)] [⟨0x10, 2⟩] [⟨0x10, 4⟩]

/-- Bytes at the very top of DMEM. -/
def top : State := machine 0 [(0xFE, 0xAB), (0xFF, 0xCD)] [⟨0xFE, 2⟩] [⟨0xFC, 4⟩]

/-- BufferBoundsFaults: one address too far in either region. -/
theorem witness_out_of_range : NotFaulted top ∧ ¬BoundsOk top 24 0xFE 0x00 ∧ ¬BoundsOk top 24 0x00 0xFE :=
  ⟨by decide, by decide, by decide⟩
/-- BufferBoundsFaults: one byte that is not readable, one that is not writable; without it the bounds hold. -/
theorem witness_not_admitted :
    NotFaulted pair ∧ ¬BoundsOk pair 24 0x10 0x10 ∧ ¬BoundsOk pair 16 0x10 0x13 ∧ BoundsOk pair 16 0x10 0x12 :=
  ⟨by decide, by decide, by decide, by decide⟩
/-- BufferOverlapFaults: regions that share one address. -/
theorem witness_overlap : NotFaulted pair ∧ BoundsOk pair 16 0x10 0x11 ∧ 0x10 ≠ 0x11 ∧ ShareAddress 16 0x10 0x11 :=
  ⟨by decide, by decide, by decide, 0x11, by decide⟩
/-- FaultEntryIsPrecise: a command that answers `Fault(1)` on a block that is not FAULTED. -/
theorem witness_fault_entry :
    RunsNext (withPort (bare 0) (record 0xA)) (record 0xA) ∧ NotFaulted (withPort (bare 0) (record 0xA)) ∧
      (next? (step (withPort (bare 0) (record 0xA)))).map (·.responses) = some [.fault 1] :=
  ⟨runsNext_withPort _ _ rfl, by decide, by decide +kernel⟩
/-- FaultedBlockAnswersStoredCode. -/
theorem witness_faulted :
    (withPort (bare 0x05) (record 0xA)).status.getLsbD 0 = true ∧
      RunsNext (withPort (bare 0x05) (record 0xA)) (record 0xA) := ⟨by decide, runsNext_withPort _ _ rfl⟩

/-- BitsReady: adjacent regions (section 3.5), which share no address. -/
theorem ready_adjacent : BitsReady pair 16 0x10 0x12 :=
  ⟨by decide, by decide, .inr (by rintro ⟨a, h⟩; omega)⟩
/-- BitsReady: identical regions. -/
theorem ready_in_place : BitsReady pair 16 0x10 0x10 := ⟨by decide, by decide, .inl rfl⟩
/-- BitsReady: a partial byte, and regions that end at the top of DMEM. -/
theorem ready_top : BitsReady top 12 0xFE 0xFC := ⟨by decide, by decide, .inr (by rintro ⟨a, h⟩; omega)⟩
/-- BitsReady: one partial byte only. -/
theorem ready_partial : BitsReady pair 3 0x10 0x12 := ⟨by decide, by decide, .inr (by rintro ⟨a, h⟩; omega)⟩

/-- Inputs of `pair` and of `top`. -/
theorem input_pair (n : Nat) (h : n ≤ 16) (k : Nat) (hk : k < (n + 7) / 8) :
    readByte pair.dmem (0x10 + k) = some (if k = 0 then 0x88 else 0x08) := by
  obtain rfl | rfl : k = 0 ∨ k = 1 := by omega
  · decide
  · decide

/-- CompleteBytesStep, BitsOutputClosedForm: a whole-byte count and a count with a partial byte. -/
theorem witness_input :
    InputIs pair 16 0x10 (fun k => if k = 0 then 0x88 else 0x08) ∧ 16 % 8 = 0 ∧
      InputIs pair 3 0x10 (fun k => if k = 0 then 0x88 else 0x08) ∧ 3 % 8 ≠ 0 :=
  ⟨input_pair 16 (by decide), by decide, input_pair 3 (by decide), by decide⟩
/-- OneFaultByPriority, HostDutyInFlight, InterruptingReset: a REFLECT.BITS command in flight, and a fixed-width one. -/
theorem witness_priority :
    RunsNext (withPort pair ⟨0x8, 0, 16, 0x10, 0x12⟩) ⟨0x8, 0, 16, 0x10, 0x12⟩ ∧
      RunsNext (withPort pair (record 0x7)) (record 0x7) ∧ (record 0x7).op.toNat < 0x8 ∧
      BitsCommand pair.cfg ⟨0x8, 0, 16, 0x10, 0x12⟩ 16 0x10 0x12 :=
  ⟨runsNext_withPort _ _ rfl, runsNext_withPort _ _ rfl, by decide, by decide, by decide⟩
/-- OnlyResetLeavesFaulted, StatusChangesOnlyByFaultOrReset: steps of a FAULTED block, and a step that changes STATUS. -/
theorem witness_status_steps :
    (bare 0x05).status.getLsbD 0 = true ∧ (next? (step (bare 0x05))).isSome = true ∧
      (next? (step { bare 0x05 with inbox := [.reset] })).map (·.status) = some 0 ∧
      (next? (step (withPort (bare 0) (record 0xA)))).map (·.status) = some 0x03 := by decide
/-- StatusChangesOnlyByFaultOrReset, the reads. -/
theorem witness_status_read :
    { withPort (bare 0x05) (record 0) with inbox := [.meanwhile .statusRead] }.inbox = .meanwhile .statusRead :: [] ∧
      (bare 0x05).port = none ∧ { bare 0x05 with inbox := [.move .statusRead] }.inbox = .move .statusRead :: [] ∧
      (bare 0x05).status.extractLsb' 4 4 = 0 := by decide
/-- ZeroLengthTouchesNothing: the last address, with nothing readable or writable. -/
theorem witness_zero_length :
    NotFaulted (bare 0) ∧ 0xFF < 2 ^ (bare 0).cfg.addrWidth ∧ 0x00 < 2 ^ (bare 0).cfg.addrWidth := by decide
/-- PartialByteStep: step 1 done before a count with a partial byte, and before one without. -/
theorem witness_after_step1 :
    (bitsStep1 pair 0x10 0x12 (3 / 8) { dmem := pair.dmem, events := [] }).isSome = true ∧
      (bitsStep1 pair 0x10 0x12 (16 / 8) { dmem := pair.dmem, events := [] }).isSome = true := by decide +kernel
/-- ByteOrderStep: three output bytes already written. -/
theorem witness_byte_order :
    (∀ k < 2, readByte pair.dmem (0x10 + k) = some (if k = 0 then 0x88 else 0x08)) ∧
      (∀ k < 2, Access.write (0x10 + k) ∈ (BitsRun.mk pair.dmem [.write 0x10, .write 0x11]).events) ∧
      ∀ k < 2, HostWritable pair (0x10 + k) := by decide
/-- PartialByteHighBitsIgnored: n = 3 with inputs that differ in bits 3 to 7 only, and an unreadable partial byte. -/
theorem witness_partial_high_bits :
    BitsReady pair 3 0x10 0x12 ∧ BitsReady { pair with dmem := [(0x10, 0xF8)] } 3 0x10 0x12 ∧ 3 % 8 ≠ 0 ∧
      (∀ i < 3, (0x88 : Byte).getLsbD i = (0xF8 : Byte).getLsbD i) ∧ NotFaulted pair ∧ 20 % 8 ≠ 0 ∧
      ¬HostReadable pair (0x10 + 20 / 8) :=
  ⟨ready_partial, ⟨by decide, by decide, .inr (by rintro ⟨a, h⟩; omega)⟩, by decide, by decide, by decide, by decide,
    by decide⟩
/-- BitsAgreesWithFixedWidth: a 16-bit value in each byte order. -/
theorem witness_agrees :
    FixedForm 16 .reflectU16 ∧ BitsReady pair 16 0x10 0x12 ∧
      InputIs pair 16 0x10 (fun k => (0x0888 : BitVec 16).extractLsb' (8 * k) 8) ∧
      InputIs pair 16 0x10 (fun k => (0x8808 : BitVec 16).extractLsb' (16 - 8 - 8 * k) 8) :=
  ⟨.u16, ready_adjacent, by decide, by decide⟩
/-- BitsInvolutionForWholeBytes, InPlaceEqualsDisjoint: two whole bytes, disjoint and in place. -/
theorem witness_whole_bytes : BitsReady pair (8 * 2) 0x10 0x12 ∧ BitsReady pair 16 0x10 0x10 ∧ 0x10 ≠ 0x12 ∧
    InputIs pair 16 0x10 (fun k => if k = 0 then 0x88 else 0x08) :=
  ⟨ready_adjacent, ready_in_place, by decide, input_pair 16 (by decide)⟩
/-- BitsInvolutionForWholeBytes, its example: the input [0x01, 0x00] with n = 12, disjoint, then the output in place. -/
def twelve : State := machine 0 [(0x10, 0x01), (0x11, 0x00)] [⟨0x10, 4⟩] [⟨0x10, 4⟩]
theorem witness_twelve :
    BitsReady twelve 12 0x10 0x12 ∧ readByte twelve.dmem 0x10 = some 0x01 ∧ readByte twelve.dmem (0x10 + 1) = some 0x00 ∧
      bitsSeen 12 0x10 0x12 twelve = some ([some 0x00, some 0x80], [.done]) :=
  ⟨⟨by decide, by decide, .inr (by rintro ⟨a, h⟩; omega)⟩, by decide, by decide, by decide +kernel⟩
/-- DecodeByOp, OpSubfieldsDecode: each clause's OP values. -/
theorem witness_ops :
    (record 0x0).op = 0x0 ∧ (record 0x8).op = 0x8 ∧ 0x9 ≤ (record 0x9).op.toNat ∧ (record 0x7).op.getLsbD 3 = false ∧
      (record 0x8).op.getLsbD 3 = true ∧ (record 0x8).op.extractLsb' 0 3 = 0 := by decide
/-- DecodeEncodeAgree: every operand at its greatest value. -/
theorem witness_well_formed : (Instr.reflectBits 255 255 255).wellFormed ⟨8, 8⟩ = true := by decide
/-- IgnoredFieldsAffectNothing: commands that differ in every ignored field. -/
theorem witness_ignored_fields :
    (Command.mk 0x0 7 1 2 3).op = (Command.mk 0x0 7 4 5 6).op ∧ (Command.mk 0x0 7 1 2 3).a = (Command.mk 0x0 7 4 5 6).a ∧
      (Command.mk 0x8 1 4 5 6).nbits = (Command.mk 0x8 2 4 5 6).nbits ∧ (bare 0).inbox.head? ≠ some (.meanwhile .statusRead) ∧
      { bare 0 with inbox := [.meanwhile .statusRead] }.inbox.head? = some (.meanwhile .statusRead) := by decide
/-- StepRunsDecodedCommand, OneResponsePerCommand. -/
theorem witness_step_runs :
    RunsNext (withPort (bare 0) (record 0x2)) (record 0x2) ∧ decode (bare 0).cfg (record 0x2) = .ok (.reflectU32 0x12345678) ∧
      decodeWord (bare 0).cfg (0x2 % 2 ^ 8) = .ok (.reflectU32 0) := ⟨runsNext_withPort _ _ rfl, by decide, by decide⟩
/-- IssuedCommandIsAnswered. -/
theorem witness_issue :
    (bare 0).port = none ∧ { bare 0 with inbox := [.issue (record 0x2) [] []] }.inbox = .issue (record 0x2) [] [] :: [] ∧
      ([] : List HostAction).head? ≠ some .resetMeanwhile := by decide
/-- A REFLECT.BITS command on `pair`, with one host action to come. -/
def busy (act : HostAction) : State := { withPort pair ⟨0x8, 0, 16, 0x10, 0x12⟩ with inbox := [act] }
/-- ResetClearsStatus, InterruptingReset, ResetBeforeOrAfterResponse: a reset of an idle block, and with a REFLECT.BITS
command in flight one before and one after its response. -/
theorem witness_reset :
    ResetLands { bare 0x05 with inbox := [.reset] } [] ∧ ResetLands (busy .resetMeanwhile) [] ∧
      (busy .resetMeanwhile).port = some ⟨0x8, 0, 16, 0x10, 0x12⟩ ∧ (busy .reset).inbox = .reset :: [] ∧
      BitsCommand pair.cfg ⟨0x8, 0, 16, 0x10, 0x12⟩ 16 0x10 0x12 ∧ 1 < (16 + 7) / 8 ∧
      0x12 + 1 < 2 ^ pair.cfg.addrWidth := by decide
/-- HostDutyInFlight: reads and writes at the last byte of a region, and at the byte after both. -/
theorem witness_host_duty :
    AccessTo (.dmemWrite 0x13 1) 0x13 ∧ AccessTo (.dmemRead 0x14) 0x14 ∧
      (busy (.meanwhile (.dmemRead 0x14))).inbox = .meanwhile (.dmemRead 0x14) :: [] ∧ 0x12 ≤ 0x13 ∧
      0x13 < 0x12 + (16 + 7) / 8 ∧
      ¬((0x10 ≤ 0x14 ∧ 0x14 < 0x10 + (16 + 7) / 8) ∨ (0x12 ≤ 0x14 ∧ 0x14 < 0x12 + (16 + 7) / 8)) ∧
      0x14 < 2 ^ pair.cfg.addrWidth := ⟨.inr ⟨1, rfl⟩, .inl rfl, by decide⟩
/-- HostAccessOutsideDmemStops, in flight: the address past DMEM lies outside the command's regions. -/
theorem witness_outside_in_flight :
    (busy (.meanwhile (.dmemRead 0x100))).inbox = .meanwhile (.dmemRead 0x100) :: [] ∧
      ∀ n src dst, decode pair.cfg ⟨0x8, 0, 16, 0x10, 0x12⟩ = .ok (.reflectBits n src dst) →
        ¬((src ≤ 0x100 ∧ 0x100 < src + (n + 7) / 8) ∨ (dst ≤ 0x100 ∧ 0x100 < dst + (n + 7) / 8)) := by
  refine ⟨by decide, fun n src dst h => ?_⟩
  rw [show decode pair.cfg ⟨0x8, 0, 16, 0x10, 0x12⟩ = .ok (.reflectBits 16 0x10 0x12) by decide] at h
  cases h
  decide
/-- R162: a reset cuts off a command whose checks would have failed, and its output byte holds a free byte. -/
theorem test_cut_draws_whatever_the_checks :
    (next? (step { withPort (bare 0) ⟨0x8, 0, 8, 0x10, 0xFF⟩ with inbox := [.resetMeanwhile] })).map
      (fun t => (readByte t.dmem 0xFF, t.responses)) = some (some (Config.freeByte 0), []) := rfl
/-- EveryCommandIsCounted: steps that take an issue, answer a command, and abandon one. -/
theorem witness_counted :
    (next? (step { bare 0 with inbox := [.issue (record 0x2) [] []] })).isSome = true ∧
      (next? (step (withPort (bare 0) (record 0x2)))).isSome = true ∧
      (next? (step (busy .resetMeanwhile))).map commandsIssued = some 1 := by decide +kernel
/-- RunEndsOnce: a run that is over with a reset still to come, one that ends after its command, and one with a command
that a reset will leave unanswered. The first is a faulted run, although the reset would clear STATUS. -/
theorem witness_run_end :
    RunOver { bare 0x05 with inbox := [.reset] } ∧
      (runEnd 0 { bare 0x05 with inbox := [.reset] }).map (·.status) = some 0x05 ∧
      (runEnd 1 (withPort (bare 0) (record 0xA))).map (·.responses) = some [.fault 1] ∧
      (busy .resetMeanwhile).port.isSome = true ∧ (busy .resetMeanwhile).inbox.head? = some .resetMeanwhile := by
  decide +kernel
/-- DmemIsPlainMemory, HostAccessOutsideDmemStops: the last address that exists, and the first that does not. -/
theorem witness_dmem :
    (bare 0).port = none ∧ 0xFF < 2 ^ (bare 0).cfg.addrWidth ∧ 2 ^ (bare 0).cfg.addrWidth ≤ 0x100 ∧
      { bare 0 with inbox := [.move (.dmemWrite 0xFF 1), .move (.dmemRead 0xFF), .move (.dmemRead 0xFF)] }.inbox =
        .move (.dmemWrite 0xFF 1) :: .move (.dmemRead 0xFF) :: .move (.dmemRead 0xFF) :: [] ∧
      { bare 0 with inbox := [.move (.dmemRead 0x100)] }.inbox = .move (.dmemRead 0x100) :: [] ∧
      { bare 0 with inbox := [.move (.dmemWrite 0x100 1)] }.inbox = .move (.dmemWrite 0x100 1) :: [] := by decide
/-- DmemChangesOnlyByHostOrBits: a host write, and a command, that change a byte. -/
theorem witness_dmem_changes :
    (next? (step { pair with inbox := [.move (.dmemWrite 0x10 0)] })).map (fun t => readByte t.dmem 0x10) = some (some 0) ∧
      (next? (step (withPort pair ⟨0x8, 0, 16, 0x10, 0x12⟩))).map (fun t => readByte t.dmem 0x12) = some (some 0x10) := by
  decide +kernel
/-- LutReadReturnsEntry, SignedOperandPattern: the greatest index, and the most negative operand of each width. -/
theorem witness_operands :
    255 ≤ 255 ∧ NotFaulted (bare 0) ∧ 2 ^ 7 ≤ 2 ^ (8 - 1) ∧ 2 ^ 63 ≤ 2 ^ (64 - 1) ∧ 8 ∈ [8, 16, 32, 64] := by decide
/-- ResetMeetsInvariant, StepKeepsInvariant: a legal state with a byte at the top of DMEM, and a step of it. -/
theorem witness_legal : Legal top ∧ Config.wf ⟨8, 8⟩ ∧ Memory.wf top.dmem ∧
    (next? (step (withPort top ⟨0x8, 0, 12, 0xFE, 0xFC⟩))).isSome = true := by decide +kernel

end Sys2Proof.Tests
end

section
/-! The block's state (R26, R28, R29): what a step is, by what is in flight and what the host does next; what a command's
OP settles; and the statements about STATUS, the response and the ignored fields. -/

namespace Sys2Proof.Machine

open Sys2Proof Sys2Proof.Claims

/-! ## What a step is -/

theorem step_of_runsNext {s : State} {c : Command} (h : RunsNext s c) : step s = runCommand c s := by
  obtain ⟨hp, hr, hm⟩ := h
  simp only [step, stepMachine, hp]
  unfold stepInFlight
  split
  case h_4 m rest hi => exact absurd (by rw [hi]; rfl) (hm m)
  case h_6 rest hi => exact absurd (by rw [hi]; rfl) hr
  all_goals rfl

theorem step_of_meanwhile {s : State} {c : Command} {m : HostMove} {rest : List HostAction}
    (hp : s.port = some c) (hi : s.inbox = .meanwhile m :: rest) : step s = moveInFlight c m (withInbox rest s) := by
  simp only [step, stepMachine, hp, stepInFlight, hi]

theorem step_of_resetMeanwhile {s : State} {c : Command} {rest : List HostAction}
    (hp : s.port = some c) (hi : s.inbox = .resetMeanwhile :: rest) :
    step s = .next (resetInFlight c (withInbox rest s)) := by
  simp only [step, stepMachine, hp, stepInFlight, hi]

theorem step_of_idle {s : State} {act : HostAction} {rest : List HostAction}
    (hp : s.port = none) (hi : s.inbox = act :: rest) : step s = hostAction act (withInbox rest s) := by
  simp only [step, stepMachine, hp, stepIdle, hi]

theorem runCommand_of_ok {c : Command} {s : State} {i : Instr} (h : decode s.cfg c = .ok i) :
    runCommand c s = exec i s := by
  simp only [runCommand, h]

theorem runCommand_of_error {c : Command} {s : State} {e : DecodeError} (h : decode s.cfg c = .error e) :
    runCommand c s = answerIllegalOp s := by
  simp only [runCommand, h]

theorem exec_reflectBits (n src dst : Nat) (s : State) :
    exec (.reflectBits n src dst) s = unlessFaulted s (reflectBuffer n src dst) := rfl

/-! ## What OP settles (R63, R64) -/

/-- The three kinds of OP value: fixed-width, REFLECT.BITS, reserved. -/
theorem op_kinds (op : BitVec 4) : op.toNat < 0x8 ∨ op = 0x8 ∨ 0x9 ≤ op.toNat := by
  revert op; decide

/-- A fixed-width OP names one instruction, which reads only A. -/
theorem decode_of_fixed {op : BitVec 4} (h : op.toNat < 0x8) :
    ∃ N mk, FixedForm N mk ∧ ∀ cfg c, c.op = op → decode cfg c = .ok (mk c.a) := by
  have hop : op = 0 ∨ op = 1 ∨ op = 2 ∨ op = 3 ∨ op = 4 ∨ op = 5 ∨ op = 6 ∨ op = 7 := by
    revert op; decide
  rcases hop with rfl | rfl | rfl | rfl | rfl | rfl | rfl | rfl
  · exact ⟨_, _, .u8, fun _ _ hc => by simp [decode, hc]⟩
  · exact ⟨_, _, .u16, fun _ _ hc => by simp [decode, hc]⟩
  · exact ⟨_, _, .u32, fun _ _ hc => by simp [decode, hc]⟩
  · exact ⟨_, _, .u64, fun _ _ hc => by simp [decode, hc]⟩
  · exact ⟨_, _, .s8, fun _ _ hc => by simp [decode, hc]⟩
  · exact ⟨_, _, .s16, fun _ _ hc => by simp [decode, hc]⟩
  · exact ⟨_, _, .s32, fun _ _ hc => by simp [decode, hc]⟩
  · exact ⟨_, _, .s64, fun _ _ hc => by simp [decode, hc]⟩

theorem decode_of_bits {c : Command} (h : c.op = 0x8) (cfg : Config) :
    decode cfg c = .ok (.reflectBits (c.nbits % 2 ^ cfg.bitcountWidth) (c.src % 2 ^ cfg.addrWidth)
      (c.dst % 2 ^ cfg.addrWidth)) := by
  simp [decode, h]

theorem decode_of_reserved {c : Command} (h : 0x9 ≤ c.op.toNat) (cfg : Config) :
    decode cfg c = .error (.reservedOp c.op) := by
  unfold decode
  split
  case h_10 => rfl
  all_goals omega

/-- A fixed-width form builds no REFLECT.BITS instruction. -/
theorem fixedForm_ne_reflectBits {N : Nat} {mk : PortWord → Instr} (h : FixedForm N mk) (a : PortWord)
    (n src dst : Nat) : mk a ≠ .reflectBits n src dst := by
  cases h <;> exact Instr.noConfusion

/-- Only OP 0x8 is REFLECT.BITS. -/
theorem op_of_decode_reflectBits {cfg : Config} {c : Command} {n src dst : Nat}
    (h : decode cfg c = .ok (.reflectBits n src dst)) : c.op = 0x8 := by
  rcases op_kinds c.op with hop | hop | hop
  · obtain ⟨N, mk, hmk, hd⟩ := decode_of_fixed hop
    rw [hd cfg c rfl] at h
    exact absurd (Except.ok.inj h) (fixedForm_ne_reflectBits hmk _ _ _ _)
  · exact hop
  · rw [decode_of_reserved hop] at h
    cases h

/-- The decoder reads OP and the fields its OP uses, and no other (R29). -/
theorem decode_congr {c c' : Command} (hop : c.op = c'.op) (ha : c.op.toNat < 0x8 → c.a = c'.a)
    (hb : c.op = 0x8 → c.nbits = c'.nbits ∧ c.src = c'.src ∧ c.dst = c'.dst) (cfg : Config) :
    decode cfg c = decode cfg c' := by
  rcases op_kinds c.op with h | h | h
  · obtain ⟨N, mk, -, hd⟩ := decode_of_fixed h
    rw [hd cfg c rfl, hd cfg c' hop.symm, ha h]
  · obtain ⟨hn, hs, hd⟩ := hb h
    rw [decode_of_bits h, decode_of_bits (hop ▸ h), hn, hs, hd]
  · rw [decode_of_reserved h, decode_of_reserved (hop ▸ h), hop]

/-! ## STATUS (R25, R26) -/

/-- The STATUS port shows the register where bits 7 to 4 are 0. -/
theorem statusPort_of_high_zero {s : State} (h : s.status.extractLsb' 4 4 = 0) : statusPort s = s.status := by
  have hv : ∀ v : BitVec 8, v.extractLsb' 4 4 = 0 → v &&& 0x0F = v := by decide
  exact hv s.status h

@[simp] theorem applyMove_status (m : HostMove) (s : State) : (applyMove m s).status = s.status := by
  cases m <;> rfl

theorem hostMove_status {m : HostMove} {s t : State} (h : hostMove m s = .next t) : t.status = s.status := by
  rw [(hostMove_eq_next h).1, applyMove_status]

theorem resetInFlight_status (c : Command) (s : State) : (resetInFlight c s).status = 0x00 := by
  obtain ⟨m, d, es, h, -⟩ := resetInFlight_frame c s
  rw [h, resetBlock_status]

/-- Between commands, only a reset changes STATUS. -/
theorem hostAction_status {act : HostAction} {s t : State} (h : hostAction act s = .next t) :
    t.status = s.status ∨ ((act = .reset ∨ act = .resetMeanwhile) ∧ t.status = 0x00) := by
  cases act with
  | issue cmd rd wr => cases h; exact .inl rfl
  | move m => exact .inl (hostMove_status h)
  | meanwhile m => exact .inl (hostMove_status h)
  | reset => cases h; exact .inr ⟨.inl rfl, rfl⟩
  | resetMeanwhile => cases h; exact .inr ⟨.inr rfl, rfl⟩

/-- A command changes STATUS only by fault entry (R145). -/
theorem runCommand_status {c : Command} {s t : State} (h : runCommand c s = .next t) :
    t.status = s.status ∨ ∃ code, faulted s = false ∧
      t = answered (.fault (faultCodeBits code)) (withStatus (faultStatus code) s) := by
  rcases runCommand_cases c s with ⟨-, e⟩ | ⟨y, -, e⟩ | ⟨code, hf, e⟩ | ⟨n, src, dst, b, -, -, -, -, e⟩ <;>
    rw [e] at h <;> cases h
  · exact .inl rfl
  · exact .inl rfl
  · exact .inr ⟨code, hf, rfl⟩
  · exact .inl rfl

/-- A STATUS read that lands in the next step, with or without a command in flight. -/
theorem step_statusRead {s : State} {rest : List HostAction}
    (h : s.inbox = .meanwhile .statusRead :: rest ∨ s.port = none ∧ s.inbox = .move .statusRead :: rest) :
    step s = .next { s with inbox := rest, reads := s.reads ++ [.status (statusPort s)] } := by
  rcases h with hi | ⟨hp, hi⟩
  · rcases s.port.eq_none_or_eq_some with hp | ⟨c, hp⟩
    · rw [step_of_idle hp hi]; rfl
    · rw [step_of_meanwhile hp hi]; rfl
  · rw [step_of_idle hp hi]; rfl

/-- Settles O17: a STATUS read by `step_statusRead`, a change of STATUS by the cases of a step. -/
theorem statusChangesOnlyByFaultOrReset : Obligations.StatusChangesOnlyByFaultOrReset := by
  unfold Obligations.StatusChangesOnlyByFaultOrReset
  refine ⟨fun s rest h hz => by rw [step_statusRead h, statusPort_of_high_zero hz], fun s t h hne => ?_⟩
  rcases step_cases h with ⟨-, -, rfl⟩ | ⟨act, rest, hp, hi, ha⟩ | ⟨c, hp, hc⟩ | ⟨c, m, rest, -, -, hm⟩ |
    ⟨c, rest, -, hi, rfl⟩
  · exact absurd rfl hne
  · rcases hostAction_status ha with hs | ⟨rfl | rfl, hs⟩
    · exact absurd hs hne
    · exact .inl ⟨rest, .inr ⟨hp, hi⟩, hs⟩
    · exact .inl ⟨rest, .inl hi, hs⟩
  · rcases runCommand_status hc with hs | ⟨code, hf, rfl⟩
    · exact absurd hs hne
    · obtain ⟨h0, hcode, -⟩ := faultStatus_fields code
      exact .inr ⟨hf, by rw [hp]; rfl, rfl, h0, by simp [hcode], rfl, rfl⟩
  · exact absurd (hostMove_status (moveInFlight_eq_next hm).1) hne
  · exact .inl ⟨rest, .inl hi, resetInFlight_status _ _⟩

/-! ## The response (R28) -/

/-- A `Value` comes only from a fixed-width OP. -/
theorem op_lt_of_runCommand_value {c : Command} {s : State} {y : PortWord} (hf : faulted s = false)
    (h : runCommand c s = .next (answered (.value y) s)) : c.op.toNat < 0x8 := by
  rcases op_kinds c.op with hop | hop | hop
  · exact hop
  · rw [runCommand_of_ok (decode_of_bits hop _), exec_reflectBits, unlessFaulted_of_not hf] at h
    rcases reflectBuffer_cases (c.nbits % 2 ^ s.cfg.bitcountWidth) (c.src % 2 ^ s.cfg.addrWidth)
      (c.dst % 2 ^ s.cfg.addrWidth) s with ⟨code, e⟩ | ⟨b, -, -, e⟩ <;>
      simp [e, answered, withStatus, withBuffer] at h
  · rw [runCommand_of_error (decode_of_reserved hop _), answerIllegalOp, unlessFaulted_of_not hf, raiseFault_eq] at h
    simp [answered] at h

/-- Settles O35, by the four answers of a command that runs. -/
theorem oneResponsePerCommand : Obligations.OneResponsePerCommand := by
  unfold Obligations.OneResponsePerCommand
  intro s c hrun
  rw [step_of_runsNext hrun]
  rcases runCommand_cases c s with ⟨-, e⟩ | ⟨y, hf, e⟩ | ⟨code, -, e⟩ | ⟨n, src, dst, b, hd, -, -, -, e⟩
  · exact ⟨_, _, e, rfl, rfl, rfl, rfl, .inl ⟨_, rfl⟩⟩
  · exact ⟨_, _, e, rfl, rfl, rfl, rfl, .inr (.inl ⟨op_lt_of_runCommand_value hf e, y, rfl⟩)⟩
  · exact ⟨_, _, e, rfl, rfl, rfl, rfl, .inl ⟨_, rfl⟩⟩
  · exact ⟨_, _, e, rfl, rfl, rfl, rfl, .inr (.inr ⟨op_of_decode_reflectBits hd, rfl⟩)⟩

/-! ## Commands that decode alike (R29) -/

/-- The command in flight replaced, where the outcome is a next state. -/
def resultWithPort (p : Option Command) : Result → Result
  | .next t => .next { t with port := p }
  | .fault f => .fault f
  | .refused r => .refused r

/-- What a command does depends on the instruction it decodes to, never on the port, which its response empties. -/
theorem runCommand_congr {s : State} {c c' : Command} (hd : decode s.cfg c = decode s.cfg c')
    (p p' : Option Command) : runCommand c { s with port := p } = runCommand c' { s with port := p' } := by
  cases h : decode s.cfg c with
  | ok i =>
    rw [runCommand_of_ok (s := { s with port := p }) h, runCommand_of_ok (s := { s with port := p' }) (hd ▸ h)]
    cases i <;> rfl
  | error e =>
    rw [runCommand_of_error (s := { s with port := p }) h, runCommand_of_error (s := { s with port := p' }) (hd ▸ h)]
    rfl

theorem commandBuffers_congr {cfg : Config} {c c' : Command} (hd : decode cfg c = decode cfg c') :
    commandBuffers cfg c = commandBuffers cfg c' := by
  simp only [commandBuffers, hd]

/-- A host move does not see the port. -/
theorem hostMove_withPort (m : HostMove) (s : State) (p : Option Command) :
    hostMove m { s with port := p } = resultWithPort p (hostMove m s) := by
  unfold hostMove
  cases m with
  | statusRead => rfl
  | dmemRead a => simp only [moveAddr]; split <;> rfl
  | dmemWrite a v => simp only [moveAddr]; split <;> rfl

/-- A host move in flight sees of the command only what it decodes to. -/
theorem moveInFlight_congr {s : State} {c c' : Command} (hd : decode s.cfg c = decode s.cfg c') (m : HostMove)
    (p p' : Option Command) :
    moveInFlight c' m { s with port := p' } = resultWithPort p' (moveInFlight c m { s with port := p }) := by
  have hr : inCommandRegion s.cfg c = inCommandRegion s.cfg c' := by
    funext a; simp only [inCommandRegion, commandBuffers_congr hd]
  have hm : hostMove m { s with port := p' } = resultWithPort p' (hostMove m { s with port := p }) :=
    hostMove_withPort m { s with port := p } p'
  unfold moveInFlight
  rw [hr]
  split
  · exact hm
  · split
    · rfl
    · exact hm

theorem drawSpan_withPort (dst len : Nat) (s : State) (p : Option Command) :
    drawSpan dst len { s with port := p } = { drawSpan dst len s with port := p } := by
  induction len with
  | zero => rfl
  | succ len ih =>
    simp only [drawSpan] at ih
    simp only [drawSpan, List.range_succ, List.foldl_append, ih]
    rfl

/-- An interrupting reset sees of the command only what it decodes to. -/
theorem resetInFlight_congr {s : State} {c c' : Command} (hd : decode s.cfg c = decode s.cfg c') :
    resetInFlight c { s with port := some c } = resetInFlight c' { s with port := some c' } := by
  simp only [resetInFlight, commandBuffers_congr hd]
  rcases commandBuffers s.cfg c' with _ | ⟨n, src, dst⟩
  · rfl
  · have hcut : ∀ p, cutBuffer n src dst { s with port := p } = { cutBuffer n src dst s with port := p } :=
      fun p => drawSpan_withPort dst _ (withBuffer s.dmem _ s) p
    change resetBlock (cutBuffer n src dst _) = resetBlock (cutBuffer n src dst _)
    rw [hcut (some c), hcut (some c')]
    rfl

/-- Settles O33: the decoder reads only the fields its OP uses, and a step sees of the command only what it decodes
to. -/
theorem ignoredFieldsAffectNothing : Obligations.IgnoredFieldsAffectNothing := by
  unfold Obligations.IgnoredFieldsAffectNothing
  intro s c c' hop ha hb
  have hd := decode_congr hop ha hb s.cfg
  refine ⟨fun hm => ?_, fun m hm => ?_⟩
  · by_cases hr : s.inbox.head? = some .resetMeanwhile
    · obtain ⟨rest, hi⟩ := List.head?_eq_some_iff.1 hr
      have hreset := fun d => step_of_resetMeanwhile (s := { s with port := some d }) rfl hi
      rw [hreset c, hreset c']
      exact congrArg _ (resetInFlight_congr (s := withInbox rest s) hd)
    · have hrun := fun d => step_of_runsNext (s := { s with port := some d }) ⟨rfl, hr, hm⟩
      rw [hrun c, hrun c']
      exact runCommand_congr hd _ _
  · obtain ⟨rest, hi⟩ := List.head?_eq_some_iff.1 hm
    have hstep : step { s with port := some c' } = resultWithPort (some c') (step { s with port := some c }) := by
      have hmove := fun d => step_of_meanwhile (s := { s with port := some d }) rfl hi
      rw [hmove c, hmove c']
      exact moveInFlight_congr (s := withInbox rest s) hd m _ _
    exact ⟨fun t h => by rw [hstep, h]; rfl, fun f h => by rw [hstep, h]; rfl⟩

end Sys2Proof.Machine
end

section
/-! The host's accesses to DMEM (R48): a move that names an address that exists happens, and DMEM as plain memory. -/

namespace Sys2Proof.Machine

open Sys2Proof Sys2Proof.Claims

/-- A host move happens where the address it names, if any, exists; `hostMove_eq_next` is the converse. -/
theorem hostMove_of_moveAddr_lt {m : HostMove} {s : State} (h : ∀ a, moveAddr m = some a → a < s.cfg.dmemSize) :
    hostMove m s = .next (applyMove m s) := by
  unfold hostMove
  split
  · rfl
  · next a hm => rw [if_pos (h a hm)]

/-- With no command in flight a host move takes one step. -/
theorem step_move_of_idle {s : State} {m : HostMove} {rest : List HostAction} (hp : s.port = none)
    (hi : s.inbox = .move m :: rest) (h : ∀ a, moveAddr m = some a → a < s.cfg.dmemSize) :
    step s = .next (applyMove m (withInbox rest s)) := by
  rw [step_of_idle hp hi]
  exact hostMove_of_moveAddr_lt h

theorem step_dmemWrite_of_idle {s : State} {a : Nat} {v : Byte} {rest : List HostAction} (hp : s.port = none)
    (ha : a < s.cfg.dmemSize) (hi : s.inbox = .move (.dmemWrite a v) :: rest) :
    step s = .next { s with inbox := rest, dmem := writeByte s.dmem a v } :=
  step_move_of_idle hp hi fun _ h => Option.some.inj h ▸ ha

theorem step_dmemRead_of_idle {s : State} {b : Nat} {rest : List HostAction} (hp : s.port = none)
    (hb : b < s.cfg.dmemSize) (hi : s.inbox = .move (.dmemRead b) :: rest) :
    step s = .next { s with inbox := rest, reads := s.reads ++ [.byte b (readByte s.dmem b)] } :=
  step_move_of_idle hp hi fun _ h => Option.some.inj h ▸ hb

/-- Settles O43: a write and two reads happen one by one, and both reads see the written memory. -/
theorem dmemIsPlainMemory : Obligations.DmemIsPlainMemory := by
  unfold Obligations.DmemIsPlainMemory
  intro s a v b rest hp ha hb hi
  refine ⟨_, _, _, readByte (writeByte s.dmem a v) b, step_dmemWrite_of_idle hp ha hi,
    step_dmemRead_of_idle hp hb rfl, step_dmemRead_of_idle hp hb rfl, rfl, ?_, rfl, readByte_writeByte s.dmem a b v⟩
  exact List.append_assoc s.reads _ _

end Sys2Proof.Machine
end

section
/-! The encoding (R61 to R67, R71): what an OP and its subfields decode to, what every fixed-width form answers, the
reserved OPs, and the table read as an instruction. -/

namespace Sys2Proof.Machine

open Sys2Proof Sys2Proof.Claims

/-! ## OP and its subfields (R61 to R65) -/

theorem decode_of_op_of_fixedForm {N : Nat} {mk : PortWord → Instr} (hmk : FixedForm N mk) {c : Command}
    (h : c.op = (encode (mk c.a)).op) (cfg : Config) : decode cfg c = .ok (mk c.a) := by
  cases hmk <;> simp [decode, h, encode, fixedRecord]

/-- Port values reach REFLECT.BITS as they are (R67). -/
theorem decode_of_bits_of_lt {cfg : Config} {c : Command} (h : c.op = 0x8) (hn : c.nbits < 2 ^ cfg.bitcountWidth)
    (hs : c.src < 2 ^ cfg.addrWidth) (hd : c.dst < 2 ^ cfg.addrWidth) :
    decode cfg c = .ok (.reflectBits c.nbits c.src c.dst) := by
  rw [decode_of_bits h, Nat.mod_eq_of_lt hn, Nat.mod_eq_of_lt hs, Nat.mod_eq_of_lt hd]

/-- A decoded command has the OP its instruction is encoded with. -/
theorem op_of_decode {cfg : Config} {c : Command} {i : Instr} (h : decode cfg c = .ok i) : c.op = (encode i).op := by
  rcases decode_cases cfg c with ⟨hop, hd⟩ | ⟨hop, hd⟩ | ⟨hop, hd⟩ | ⟨hop, hd⟩ | ⟨hop, hd⟩ | ⟨hop, hd⟩ | ⟨hop, hd⟩ |
    ⟨hop, hd⟩ | ⟨hop, hd⟩ | ⟨-, hd⟩ <;> rw [hd] at h <;> cases h <;> exact hop

theorem op_lt_of_kind_zero {op : BitVec 4} (h : op.getLsbD 3 = false) : op.toNat < 0x8 := by
  revert op; decide

theorem op_eq_of_kind_one {op : BitVec 4} (h : op.getLsbD 3 = true) (h0 : op.extractLsb' 0 3 = 0) : op = 0x8 := by
  revert op; decide

theorem op_reserved_of_kind_one {op : BitVec 4} (h : op.getLsbD 3 = true) (h0 : op.extractLsb' 0 3 ≠ 0) :
    0x9 ≤ op.toNat := by
  revert op; decide

/-- The width code in a fixed-width form's OP gives the form's width (R62). -/
theorem opWidth_of_fixedForm {N : Nat} {mk : PortWord → Instr} (hmk : FixedForm N mk) (a : PortWord) :
    opWidth (encode (mk a)).op = N := by
  cases hmk <;> simp [opWidth, opWidthCode, encode, fixedRecord]

/-- S is 1 in the OP of the signed forms, and of no other (R61). -/
theorem opSign_of_fixedForm {N : Nat} {mk : PortWord → Instr} (hmk : FixedForm N mk) (a : PortWord) :
    (encode (mk a)).op.getLsbD 2 = true ↔ ∃ a', mk a' = .reflectS8 a' ∨ mk a' = .reflectS16 a' ∨
      mk a' = .reflectS32 a' ∨ mk a' = .reflectS64 a' := by
  cases hmk <;> simp [encode, fixedRecord]

/-- Settles O30: K = 0 is a fixed-width form, whose OP gives W and S; with K = 1 the low three bits decide. -/
theorem opSubfieldsDecode : Obligations.OpSubfieldsDecode := by
  unfold Obligations.OpSubfieldsDecode
  refine fun cfg c => ⟨fun hk => ?_, fun hk => ⟨fun h0 => ?_, fun h0 => ?_⟩⟩
  · obtain ⟨N, mk, hmk, hd⟩ := decode_of_fixed (op_lt_of_kind_zero hk)
    have hop := op_of_decode (hd cfg c rfl)
    have hw : opWidth c.op = N := hop ▸ opWidth_of_fixedForm hmk c.a
    exact ⟨N, mk, hmk, hw.symm, hw, hd cfg c rfl, hop ▸ opSign_of_fixedForm hmk c.a⟩
  · exact ⟨_, _, _, decode_of_bits (op_eq_of_kind_one hk h0) cfg⟩
  · exact ⟨_, decode_of_reserved (op_reserved_of_kind_one hk h0) cfg⟩

/-- Settles O29, by the decoder's answer for each OP. -/
theorem decodeByOp : Obligations.DecodeByOp := by
  unfold Obligations.DecodeByOp
  intro cfg c
  exact ⟨fun h => decode_of_op_of_fixedForm .u8 h cfg, fun h => decode_of_op_of_fixedForm .u16 h cfg,
    fun h => decode_of_op_of_fixedForm .u32 h cfg, fun h => decode_of_op_of_fixedForm .u64 h cfg,
    fun h => decode_of_op_of_fixedForm .s8 h cfg, fun h => decode_of_op_of_fixedForm .s16 h cfg,
    fun h => decode_of_op_of_fixedForm .s32 h cfg, fun h => decode_of_op_of_fixedForm .s64 h cfg,
    fun h => ⟨_, _, _, decode_of_bits h cfg⟩, decode_of_bits_of_lt, fun h => ⟨_, decode_of_reserved h cfg⟩⟩

/-- Settles O10: a reserved OP is answered by fault entry with ILLEGAL_OP. -/
theorem reservedOpFaults : Obligations.ReservedOpFaults := by
  unfold Obligations.ReservedOpFaults
  intro s c hrun hop hf
  rw [step_of_runsNext hrun, runCommand_of_error (decode_of_reserved hop _), answerIllegalOp,
    unlessFaulted_of_not hf, raiseFault_eq]
  rfl

/-! ## The fixed-width forms at the ports (R66, R92) -/

/-- Both forms of a width are the one reflect of that width. -/
theorem exec_of_fixedForm {N : Nat} {mk : PortWord → Instr} (hmk : FixedForm N mk) (a : PortWord) (s : State) :
    exec (mk a) s = reflectFixed N a s := by
  cases hmk <;> rfl

theorem operand_congr {N : Nat} {a a' : PortWord} (h : ∀ i < N, a.getLsbD i = a'.getLsbD i) :
    operand N a = operand N a' := by
  refine BitVec.eq_of_getLsbD_eq fun i hi => ?_
  rw [getLsbD_operand, getLsbD_operand, h i hi]

theorem operand_eq_extractLsb' (N : Nat) (a : PortWord) : operand N a = a.extractLsb' 0 N := by
  refine BitVec.eq_of_getLsbD_eq fun i hi => ?_
  rw [getLsbD_operand, BitVec.getLsbD_extractLsb', Nat.zero_add]

/-- Settles O7: a fixed-width form sees A only through the operand of its width. -/
theorem operandAndResultZeroExtend : Obligations.OperandAndResultZeroExtend := by
  unfold Obligations.OperandAndResultZeroExtend
  refine fun N mk mk' hmk hmk' a a' s => ⟨fun h => ?_, fun hf => ?_⟩
  · rw [exec_of_fixedForm hmk, exec_of_fixedForm hmk', reflectFixed, reflectFixed, operand_congr h]
  · rw [exec_of_fixedForm hmk, reflectFixed_of_not_faulted hf]
    exact ⟨_, rfl, by rw [zext, rev, operand_eq_extractLsb']⟩

/-! ## The table reverses a byte (R80, R113) -/

theorem getLsbD_placeBit {q : Nat} (hq : q < 8) (p : Byte) (v : Bool) (j : Nat) :
    (if v then p ||| BitVec.twoPow 8 q else p).getLsbD j = (p.getLsbD j || (decide (q = j) && v)) := by
  cases v <;> simp [BitVec.getLsbD_twoPow, hq]

/-- Placing bits 0 to k−1 of b, bit i at position r−1−i, fills positions r−k to r−1 with the reversed bits. -/
theorem getLsbD_placeBits {r : Nat} (hr : r ≤ 8) (b : Byte) {k : Nat} (hk : k ≤ r) (j : Nat) :
    ((List.range k).foldl (fun p i => if b.getLsbD i then p ||| BitVec.twoPow 8 (r - 1 - i) else p) 0).getLsbD j =
      (decide (r - k ≤ j ∧ j < r) && b.getLsbD (r - 1 - j)) := by
  induction k with
  | zero => simp
  | succ k ih =>
    rw [List.range_succ, List.foldl_append, List.foldl_cons, List.foldl_nil, getLsbD_placeBit (by omega), ih (by omega)]
    by_cases hj : r - 1 - k = j
    · have hnew : r - (k + 1) ≤ j ∧ j < r := by omega
      have hkj : r - 1 - j = k := by omega
      rw [hkj, decide_eq_true hj, decide_eq_true hnew, Bool.true_and, Bool.or_eq_right_iff_imp]
      exact fun h => (Bool.and_eq_true_iff.1 h).2
    · have hsame : r - (k + 1) ≤ j ∧ j < r ↔ r - k ≤ j ∧ j < r := by omega
      simp only [hsame, hj, decide_false, Bool.false_and, Bool.or_false]

/-- The partial byte of R113 is the reversal of b's low r bits. -/
theorem getLsbD_partialByte {r : Nat} (hr : r ≤ 8) (b : Byte) (j : Nat) :
    (partialByte r b).getLsbD j = (decide (j < r) && b.getLsbD (r - 1 - j)) := by
  rw [partialByte, getLsbD_placeBits hr b le_rfl]
  simp

theorem tableRead_eq_tableEntry (b : Byte) : tableRead b = tableEntry b := by
  simp [tableRead, table, List.getD, b.isLt]

theorem tableRead_eq_rev (b : Byte) : tableRead b = rev b := by
  have hentry : tableEntry b = partialByte 8 b := rfl
  refine BitVec.eq_of_getLsbD_eq fun i hi => ?_
  rw [tableRead_eq_tableEntry, hentry, getLsbD_partialByte le_rfl, getLsbD_rev]

/-- Settles O46: REFLECT.U8 answers the reversed operand, and so does the table. -/
theorem lutReadReturnsEntry : Obligations.LutReadReturnsEntry := by
  unfold Obligations.LutReadReturnsEntry
  refine fun b hb => ⟨if_pos hb, fun s hf => ?_⟩
  have hop : operand 8 (BitVec.ofNat 64 b) = BitVec.ofNat 8 b := BitVec.setWidth_ofNat_of_le (by decide) b
  rw [exec_of_fixedForm .u8, reflectFixed_of_not_faulted hf, respond_eq, hop, ← tableRead_eq_rev]
  rfl

end Sys2Proof.Machine
end

section
/-! The table (R80, R82, R83): a read of it is the reversal of a byte, so its properties are those of `rev`. -/

namespace Sys2Proof.Machine

open Sys2Proof Sys2Proof.Claims

theorem length_table : table.length = 256 := by
  simp [table]

theorem getLsbD_tableRead (b : Byte) (i : Nat) :
    (tableRead b).getLsbD i = (decide (i < 8) && b.getLsbD (7 - i)) := by
  rw [tableRead_eq_rev, getLsbD_rev]

theorem tableRead_tableRead (b : Byte) : tableRead (tableRead b) = b := by
  rw [tableRead_eq_rev, tableRead_eq_rev, rev_rev]

theorem tableRead_zero : tableRead 0 = 0 := by
  rw [tableRead_eq_rev]
  decide

theorem tableRead_255 : tableRead 255 = 255 := by
  rw [tableRead_eq_rev]
  decide

/-- Settles O1: every entry of the table is the reversal of its index. -/
theorem tableReversesEveryByte : Obligations.TableReversesEveryByte := by
  unfold Obligations.TableReversesEveryByte
  exact ⟨length_table, getLsbD_tableRead, tableRead_tableRead, tableRead_zero, tableRead_255⟩

end Sys2Proof.Machine
end

section
/-! The fixed-width reflects (R90 to R102): the table-based byte algorithm, what each form answers by whether the block
is FAULTED, and the reflection of a reflected value. -/

namespace Sys2Proof.Machine

open Sys2Proof Sys2Proof.Claims

/-! ## The table-based byte algorithm (R91) -/

/-- Byte `nb − 1 − j` from the top is byte j from the bottom. -/
theorem getLsbD_byteFromTop {nb j : Nat} (hj : j < nb) (x : BitVec (8 * nb)) (i : Nat) :
    (byteFromTop x (nb - 1 - j)).getLsbD i = (decide (i < 8) && x.getLsbD (8 * j + i)) := by
  have hstart : 8 * nb - 8 - 8 * (nb - 1 - j) = 8 * j := by omega
  rw [byteFromTop, hstart, BitVec.getLsbD_extractLsb']

/-- Result byte j, put at its place, holds exactly the reversed bits of the operand that belong there. -/
theorem getLsbD_placedByte {nb j : Nat} (hj : j < nb) (x : BitVec (8 * nb)) (i : Nat) :
    (zext (8 * nb) (tableRead (byteFromTop x (nb - 1 - j))) <<< (8 * nb - 8 - 8 * j)).getLsbD i =
      (decide (8 * nb - 8 * (j + 1) ≤ i ∧ i < 8 * nb - 8 * j) && x.getLsbD (8 * nb - 1 - i)) := by
  rw [BitVec.getLsbD_shiftLeft, getLsbD_zext, getLsbD_tableRead, getLsbD_byteFromTop hj]
  by_cases hi : 8 * nb - 8 * (j + 1) ≤ i ∧ i < 8 * nb - 8 * j
  · have hbit : 8 * j + (7 - (i - (8 * nb - 8 - 8 * j))) = 8 * nb - 1 - i := by omega
    have hin : i < 8 * nb ∧ ¬i < 8 * nb - 8 - 8 * j ∧ i - (8 * nb - 8 - 8 * j) < 8 * nb ∧
        i - (8 * nb - 8 - 8 * j) < 8 ∧ 7 - (i - (8 * nb - 8 - 8 * j)) < 8 := by omega
    rw [hbit, decide_eq_true hi]
    simp [hin]
  · have hout : i < 8 * nb - 8 - 8 * j ∨ ¬i - (8 * nb - 8 - 8 * j) < 8 := by omega
    rw [decide_eq_false hi]
    rcases hout with h | h <;> simp [h]

/-- Placing result bytes 0 to k−1 fills the top 8k bits with the reversed bits of the operand. -/
theorem getLsbD_placedBytes {nb k : Nat} (hk : k ≤ nb) (x : BitVec (8 * nb)) (i : Nat) :
    ((List.range k).foldl
      (fun w j => w ||| (zext (8 * nb) (tableRead (byteFromTop x (nb - 1 - j))) <<< (8 * nb - 8 - 8 * j)))
      0).getLsbD i =
      (decide (8 * nb - 8 * k ≤ i ∧ i < 8 * nb) && x.getLsbD (8 * nb - 1 - i)) := by
  induction k with
  | zero => simp
  | succ k ih =>
    have hsplit : 8 * nb - 8 * (k + 1) ≤ i ∧ i < 8 * nb ↔ (8 * nb - 8 * k ≤ i ∧ i < 8 * nb) ∨
        (8 * nb - 8 * (k + 1) ≤ i ∧ i < 8 * nb - 8 * k) := by omega
    rw [List.range_succ, List.foldl_append, List.foldl_cons, List.foldl_nil, BitVec.getLsbD_or, ih (by omega),
      getLsbD_placedByte hk, ← Bool.and_or_distrib_right, ← Bool.decide_or, decide_eq_decide.2 hsplit]

theorem tableReflect_eq_rev (nb : Nat) (x : BitVec (8 * nb)) : tableReflect nb x = rev x := by
  refine BitVec.eq_of_getLsbD_eq fun i hi => ?_
  rw [tableReflect, getLsbD_placedBytes le_rfl, getLsbD_rev]
  simp

/-- Settles O2: the byte algorithm is `rev`, whose bit i is operand bit `8·nb − 1 − i`. -/
theorem tableAlgorithmReversesAllBits : Obligations.TableAlgorithmReversesAllBits := by
  unfold Obligations.TableAlgorithmReversesAllBits
  intro nb x i hi
  rw [tableReflect_eq_rev, getLsbD_rev, decide_eq_true hi, Bool.true_and]

/-! ## What a fixed-width form answers (R93 to R101) -/

theorem width_le_of_fixedForm {N : Nat} {mk : PortWord → Instr} (hmk : FixedForm N mk) : N ≤ 64 := by
  cases hmk <;> decide

theorem exec_fixedForm_of_notFaulted {N : Nat} {mk : PortWord → Instr} (hmk : FixedForm N mk) (a : PortWord)
    {s : State} (hf : NotFaulted s) :
    exec (mk a) s = .next (answered (.value (zext 64 (rev (operand N a)))) s) := by
  rw [exec_of_fixedForm hmk, reflectFixed_of_not_faulted hf, respond]

theorem exec_fixedForm_of_faulted {N : Nat} {mk : PortWord → Instr} (hmk : FixedForm N mk) (a : PortWord)
    {s : State} (hf : faulted s = true) : exec (mk a) s = .next (answered (.fault (fcode s)) s) := by
  rw [exec_of_fixedForm hmk, reflectFixed_of_faulted hf, respond]

/-- A form meets its instruction rule at the OP it is encoded with. -/
theorem fullReflect_of_fixedForm {N : Nat} {mk : PortWord → Instr} (hmk : FixedForm N mk) {op : BitVec 4}
    (hop : ∀ a, (encode (mk a)).op = op) : FullReflect N op mk := by
  have hN := width_le_of_fixedForm hmk
  refine ⟨fun cfg c hc => decode_of_op_of_fixedForm hmk (hc.trans (hop c.a).symm) cfg, fun a s hf =>
    ⟨_, exec_fixedForm_of_notFaulted hmk a hf, fun i hi => ?_, fun i hi => ?_⟩⟩
  · rw [getLsbD_reflected hN, decide_eq_true hi, Bool.true_and]
  · rw [getLsbD_reflected hN, decide_eq_false (Nat.not_lt.2 hi), Bool.false_and]

/-- Settles O3: both forms of width 8 meet their rule. -/
theorem reflect8Result : Obligations.Reflect8Result := by
  unfold Obligations.Reflect8Result
  exact ⟨fullReflect_of_fixedForm .u8 fun _ => rfl, fullReflect_of_fixedForm .s8 fun _ => rfl⟩

/-- Settles O4: both forms of width 16 meet their rule. -/
theorem reflect16Result : Obligations.Reflect16Result := by
  unfold Obligations.Reflect16Result
  exact ⟨fullReflect_of_fixedForm .u16 fun _ => rfl, fullReflect_of_fixedForm .s16 fun _ => rfl⟩

/-- Settles O5: both forms of width 32 meet their rule. -/
theorem reflect32Result : Obligations.Reflect32Result := by
  unfold Obligations.Reflect32Result
  exact ⟨fullReflect_of_fixedForm .u32 fun _ => rfl, fullReflect_of_fixedForm .s32 fun _ => rfl⟩

/-- Settles O6: both forms of width 64 meet their rule. -/
theorem reflect64Result : Obligations.Reflect64Result := by
  unfold Obligations.Reflect64Result
  exact ⟨fullReflect_of_fixedForm .u64 fun _ => rfl, fullReflect_of_fixedForm .s64 fun _ => rfl⟩

/-- Settles O8, by whether the block is FAULTED. -/
theorem fixedWidthOnlyResponds : Obligations.FixedWidthOnlyResponds := by
  unfold Obligations.FixedWidthOnlyResponds
  intro N mk hmk a s
  by_cases hf : NotFaulted s
  · exact ⟨_, exec_fixedForm_of_notFaulted hmk a hf, fun _ => ⟨_, rfl⟩, fun h => absurd hf h⟩
  · have hfaulted : faulted s = true := Bool.eq_true_of_not_eq_false hf
    exact ⟨_, exec_fixedForm_of_faulted hmk a hfaulted, fun h => absurd h hf, fun _ => rfl⟩

/-! ## Reflecting twice (R102) -/

/-- The operand of a zero-extended value is the value. -/
theorem operand_zext {N : Nat} (hN : N ≤ 64) (v : BitVec N) : operand N (zext 64 v) = v := by
  rw [operand, zext, BitVec.setWidth_setWidth_of_le v hN, BitVec.setWidth_eq]

/-- Settles O9: the second command's operand is the first one's reversal, and `rev` is an involution. -/
theorem fixedWidthIsInvolution : Obligations.FixedWidthIsInvolution := by
  unfold Obligations.FixedWidthIsInvolution
  intro N mk hmk a s hf
  have hback : zext 64 (rev (operand N (zext 64 (rev (operand N a))))) = (a.extractLsb' 0 N).setWidth 64 := by
    rw [operand_zext (width_le_of_fixedForm hmk), rev_rev, operand_eq_extractLsb', zext]
  refine ⟨_, _, _, exec_fixedForm_of_notFaulted hmk a hf, answered_responses _ _,
    exec_fixedForm_of_notFaulted hmk _ hf, ?_⟩
  rw [answered_responses, hback]

end Sys2Proof.Machine
end

section
/-! The steps of REFLECT.BITS (R110 to R115): the conditions of an admitted command as the machine checks them, what one
transfer and one exchange do to DMEM and to the access record, and what each of the three steps leaves. -/

namespace Sys2Proof.Machine

open Sys2Proof Sys2Proof.Claims

/-! ## The checks (R122) -/

theorem readableAt_iff_hostReadable {s : State} {a : Nat} : readableAt s a = true ↔ HostReadable s a := by
  rw [readableAt, Bool.and_eq_true, admits_iff]

/-- Checks 1 to 3 are the conditions of R122. -/
theorem boundsOk_iff_checks {s : State} {n src dst : Nat} :
    BoundsOk s n src dst ↔
      spansInDmem n src dst s = true ∧ inputReadable n src s = true ∧ outputWritable n dst s = true := by
  simp only [spansInDmem_iff, inputReadable_iff, outputWritable_iff, readableAt_iff_hostReadable, writableAt_iff, ceil8,
    and_assoc]

/-- Identical regions, and regions that share no address, do not overlap as R115 writes it. -/
theorem spansOverlap_eq_false {n src dst : Nat} (h : src = dst ∨ ¬ShareAddress n src dst) :
    spansOverlap n src dst = false := by
  refine Bool.eq_false_iff.2 fun hover => ?_
  obtain ⟨hL, hne, hlt, hlt'⟩ := spansOverlap_iff.1 hover
  rcases h with heq | hshare
  · exact hne heq
  · refine hshare ⟨max src dst, ?_⟩
    unfold ceil8 at hL hlt hlt'
    omega

theorem bitsFault_of_ready {s : State} {n src dst : Nat} (h : BitsReady s n src dst) : bitsFault n src dst s = none := by
  obtain ⟨hspan, hread, hwrite⟩ := boundsOk_iff_checks.1 h.bounds
  exact bitsFault_eq_none.2 ⟨hspan, hread, hwrite, spansOverlap_eq_false h.apart⟩

/-- An admitted command whose steps run to the end is answered `Done`. -/
theorem exec_bits_of_run {s : State} {n src dst : Nat} {c : BitsRun} (h : BitsReady s n src dst)
    (hrun : bitsRun n src dst s = some c) :
    exec (.reflectBits n src dst) s = .next (answered .done (withBuffer c.dmem c.events s)) := by
  rw [exec_reflectBits, unlessFaulted_of_not h.notFaulted]
  simp only [reflectBuffer, bitsFault_of_ready h, hrun, respond]

/-- A failed check of bounds is BUFFER_BOUNDS (R142). -/
theorem exec_bits_of_not_boundsOk {s : State} {n src dst : Nat} (hf : NotFaulted s) (h : ¬BoundsOk s n src dst) :
    exec (.reflectBits n src dst) s = raiseFault .bufferBounds s := by
  have hfault : bitsFault n src dst s = some .bufferBounds := by
    rw [bitsFault_eq_bounds]
    simpa only [boundsOk_iff_checks, not_and_or, Bool.not_eq_true] using h
  rw [exec_reflectBits, unlessFaulted_of_not hf]
  simp only [reflectBuffer, hfault]

/-- Settles O18: with n = 0 every check of extent is vacuous and no step makes an access. -/
theorem zeroLengthTouchesNothing : Obligations.ZeroLengthTouchesNothing := by
  unfold Obligations.ZeroLengthTouchesNothing
  intro s src dst hf hsrc hdst
  have hready : BitsReady s 0 src dst :=
    ⟨hf, ⟨hsrc.le, hdst.le, fun _ hk => absurd hk (Nat.not_lt_zero _), fun _ hk => absurd hk (Nat.not_lt_zero _)⟩,
      .inr fun ⟨a, hin, _⟩ => by omega⟩
  have hrun : bitsRun 0 src dst s = some { dmem := s.dmem, events := [] } := rfl
  rw [exec_bits_of_run hready hrun]
  simp [answered, withBuffer]

/-! ## The input (R110) -/

/-- A readable region holds some input bytes. -/
theorem exists_inputIs {s : State} {n src dst : Nat} (h : BitsReady s n src dst) : ∃ In, InputIs s n src In := by
  obtain ⟨-, -, hread, -⟩ := h.bounds
  refine ⟨fun k => (readByte s.dmem (src + k)).getD 0, fun k hk => ?_⟩
  obtain ⟨v, hv⟩ := Option.isSome_iff_exists.1 (hread k hk).1
  simp [hv]

theorem inputIs_unique {s : State} {n src : Nat} {In In' : Nat → Byte} (h : InputIs s n src In)
    (h' : InputIs s n src In') {k : Nat} (hk : k < (n + 7) / 8) : In k = In' k :=
  Option.some.inj ((h k hk).symm.trans (h' k hk))

/-! ## A loop over `List.range` -/

/-- A loop whose every round succeeds and carries `P k` to `P (k + 1)` ends in `P n`. -/
theorem foldlM_range_reaches {σ : Type} {f : σ → Nat → Option σ} {P : Nat → σ → Prop} {c : σ} (n : Nat) (h0 : P 0 c)
    (hround : ∀ k < n, ∀ d, P k d → ∃ d', f d k = some d' ∧ P (k + 1) d') :
    ∃ d, (List.range n).foldlM f c = some d ∧ P n d := by
  induction n with
  | zero => exact ⟨c, rfl, h0⟩
  | succ n ih =>
    obtain ⟨d, hd, hP⟩ := ih fun k hk => hround k (by omega)
    obtain ⟨d', hd', hP'⟩ := hround n (Nat.lt_succ_self n) d hP
    exact ⟨d', by simp [List.range_succ, List.foldlM_append, hd, hd'], hP'⟩

/-! ## Bytes transferred in ascending order (R112, R113) -/

/-- One admitted read, then one admitted write of what `f` makes of the byte. -/
theorem transferByte_eq {s : State} {c : BitsRun} {a b : Nat} {v : Byte} (f : Byte → Byte)
    (hr : readableAt s a = true) (hv : readByte c.dmem a = some v) (hw : writableAt s b = true) :
    ((memRead s c a).bind fun p => memWrite s p.2 b (f p.1)) =
      some { dmem := writeByte c.dmem b (f v), events := c.events ++ [.read a, .write b] } := by
  rw [memRead_eq_some.2 ⟨.inl hr, hv, rfl⟩, Option.bind_some, memWrite_eq_some.2 ⟨hw, rfl⟩, List.append_assoc,
    List.singleton_append]

/-- The run `c` has read k input bytes in ascending order and written `B` in their places at dst, and nothing else. -/
structure Staged (s : State) (src dst : Nat) (B : Nat → Byte) (k : Nat) (c : BitsRun) : Prop where
  written : ∀ i < k, readByte c.dmem (dst + i) = some (B i)
  outside : ∀ a, ¬(dst ≤ a ∧ a < dst + k) → readByte c.dmem a = readByte s.dmem a
  events : c.events = (List.range k).flatMap fun i => [.read (src + i), .write (dst + i)]

theorem staged_zero (s : State) (src dst : Nat) (B : Nat → Byte) :
    Staged s src dst B 0 { dmem := s.dmem, events := [] } :=
  ⟨fun _ hi => absurd hi (Nat.not_lt_zero _), fun _ _ => rfl, rfl⟩

theorem Staged.next {s : State} {src dst k : Nat} {B : Nat → Byte} {c : BitsRun} (h : Staged s src dst B k c) :
    Staged s src dst B (k + 1)
      { dmem := writeByte c.dmem (dst + k) (B k), events := c.events ++ [.read (src + k), .write (dst + k)] } where
  written i hi := by
    by_cases hik : i = k
    · rw [hik, readByte_writeByte_same]
    · rw [readByte_writeByte_other _ _ (by omega), h.written i (by omega)]
  outside a ha := by
    rw [readByte_writeByte_other _ _ (by omega), h.outside a (by omega)]
  events := by
    rw [h.events, List.range_succ, List.flatMap_append, List.flatMap_singleton]

/-- The byte steps 1 and 2 write at dst + k: the table's for a complete byte, else the partial byte. -/
def stagedByte (n : Nat) (In : Nat → Byte) (k : Nat) : Byte :=
  if k < n / 8 then tableRead (In k) else partialByte (n % 8) (In k)

theorem stagedByte_complete {n k : Nat} (In : Nat → Byte) (hk : k < n / 8) : stagedByte n In k = tableRead (In k) :=
  if_pos hk

theorem stagedByte_partial (n : Nat) (In : Nat → Byte) :
    stagedByte n In (n / 8) = partialByte (n % 8) (In (n / 8)) :=
  if_neg (Nat.lt_irrefl _)

section
variable {s : State} {n src dst : Nat} {In : Nat → Byte} (h : BitsReady s n src dst) (hin : InputIs s n src In)
include h hin

/-- With regions disjoint or identical, the first k writes have not touched input byte k. -/
theorem read_of_staged {B : Nat → Byte} {k : Nat} {c : BitsRun} (hk : k < (n + 7) / 8) (hc : Staged s src dst B k c) :
    readByte c.dmem (src + k) = some (In k) := by
  have hfresh : ¬(dst ≤ src + k ∧ src + k < dst + k) := by
    rintro ⟨hlo, hhi⟩
    rcases h.apart with heq | hshare
    · omega
    · exact hshare ⟨src + k, by omega⟩
  rw [hc.outside _ hfresh, hin k hk]

theorem transferByte_of_staged {B : Nat → Byte} {k : Nat} {c : BitsRun} (hk : k < (n + 7) / 8)
    (hc : Staged s src dst B k c) (f : Byte → Byte) :
    ((memRead s c (src + k)).bind fun p => memWrite s p.2 (dst + k) (f p.1)) =
      some { dmem := writeByte c.dmem (dst + k) (f (In k)),
             events := c.events ++ [.read (src + k), .write (dst + k)] } := by
  obtain ⟨-, -, hread, hwrite⟩ := h.bounds
  exact transferByte_eq f (readableAt_iff_hostReadable.2 (hread k hk)) (read_of_staged h hin hk hc)
    (writableAt_iff.2 (hwrite k hk))

theorem bitsStep1_staged : ∃ c, bitsStep1 s src dst (n / 8) { dmem := s.dmem, events := [] } = some c ∧
    Staged s src dst (stagedByte n In) (n / 8) c := by
  refine foldlM_range_reaches (n / 8) (staged_zero s src dst _) fun k hk c hc => ⟨_, ?_, hc.next⟩
  rw [stagedByte_complete In hk]
  exact transferByte_of_staged h hin (by omega) hc tableRead

theorem bitsStep2_eq {c : BitsRun} (hr : n % 8 ≠ 0) (hc : Staged s src dst (stagedByte n In) (n / 8) c) :
    bitsStep2 s src dst (n / 8) (n % 8) c =
      some { dmem := writeByte c.dmem (dst + n / 8) (partialByte (n % 8) (In (n / 8))),
             events := c.events ++ [.read (src + n / 8), .write (dst + n / 8)] } := by
  rw [bitsStep2, if_neg hr]
  exact transferByte_of_staged h hin (by omega) hc (partialByte (n % 8))

theorem bitsStep2_staged {c : BitsRun} (hc : Staged s src dst (stagedByte n In) (n / 8) c) :
    ∃ c', bitsStep2 s src dst (n / 8) (n % 8) c = some c' ∧ Staged s src dst (stagedByte n In) ((n + 7) / 8) c' := by
  by_cases hr : n % 8 = 0
  · have hL : (n + 7) / 8 = n / 8 := by omega
    exact ⟨c, if_pos hr, hL ▸ hc⟩
  · have hL : (n + 7) / 8 = n / 8 + 1 := by omega
    rw [hL]
    exact ⟨_, bitsStep2_eq h hin hr hc, stagedByte_partial n In ▸ hc.next⟩

end

/-- Settles O20: step 1 stages the complete bytes. -/
theorem completeBytesStep : Obligations.CompleteBytesStep := by
  unfold Obligations.CompleteBytesStep
  intro s n src dst In h hin
  obtain ⟨c, hrun, hc⟩ := bitsStep1_staged h hin
  exact ⟨c, hrun, fun k hk => stagedByte_complete In hk ▸ hc.written k hk, hc.outside, hc.events⟩

/-- R113's second spelling of the partial byte. -/
theorem partialByte_eq_reverse {r : Nat} (hr : r ≤ 8) (b : Byte) :
    partialByte r b = (b.extractLsb' 0 r).reverse.setWidth 8 := by
  refine BitVec.eq_of_getLsbD_eq fun j hj => ?_
  rw [← rev, ← zext, getLsbD_zext, getLsbD_rev, getLsbD_partialByte hr, BitVec.getLsbD_extractLsb', Nat.zero_add,
    decide_eq_true hj, Bool.true_and]
  by_cases hjr : j < r
  · rw [decide_eq_true (show r - 1 - j < r by omega), Bool.true_and]
  · rw [decide_eq_false hjr, Bool.false_and, Bool.false_and]

/-- R113's third spelling of the partial byte. -/
theorem partialByte_eq_shift {r : Nat} (hr : r ≤ 8) (b : Byte) : partialByte r b = tableRead b >>> (8 - r) := by
  refine BitVec.eq_of_getLsbD_eq fun j _ => ?_
  have hbit : 7 - (8 - r + j) = r - 1 - j := by omega
  have hin : j < r ↔ 8 - r + j < 8 := by omega
  rw [BitVec.getLsbD_ushiftRight, getLsbD_tableRead, getLsbD_partialByte hr, hbit, decide_eq_decide.2 hin]

/-- Bits r to 7 of the partial byte are zero. -/
theorem getLsbD_partialByte_high {r j : Nat} (hr : r ≤ 8) (b : Byte) (hj : r ≤ j) :
    (partialByte r b).getLsbD j = false := by
  rw [getLsbD_partialByte hr, decide_eq_false (Nat.not_lt.2 hj), Bool.false_and]

/-- Settles O19: after step 1, step 2 is one transfer of the partial byte. -/
theorem partialByteStep : Obligations.PartialByteStep := by
  unfold Obligations.PartialByteStep
  refine fun s n src dst In c h hin hstep1 => ⟨fun hr => if_pos hr, fun hr => ?_⟩
  have hr8 : n % 8 ≤ 8 := by omega
  obtain ⟨d, hd, hc⟩ := bitsStep1_staged h hin
  cases hstep1.symm.trans hd
  refine ⟨_, _, bitsStep2_eq h hin hr hc, readByte_writeByte_same _ _ _, fun a ha => readByte_writeByte_other _ _ ha,
    rfl, fun i hi => ?_, fun j hj => getLsbD_partialByte_high hr8 _ hj, partialByte_eq_reverse hr8 _,
    partialByte_eq_shift hr8 _⟩
  have hlt : n % 8 - 1 - i < n % 8 := by omega
  have hback : n % 8 - 1 - (n % 8 - 1 - i) = i := by omega
  rw [getLsbD_partialByte hr8, hback, decide_eq_true hlt, Bool.true_and]

/-! ## The exchanges (R114) -/

/-- The four accesses of exchange i over L bytes at dst (R124). -/
def exchangeAccesses (dst L i : Nat) : List Access :=
  [.read (dst + i), .read (dst + (L - 1 - i)), .write (dst + i), .write (dst + (L - 1 - i))]

/-- An exchange of two bytes the command has written. -/
theorem exchangeBytes_eq {s : State} {c : BitsRun} {dst L i : Nat} {lo hi : Byte}
    (hlo : readByte c.dmem (dst + i) = some lo) (hhi : readByte c.dmem (dst + (L - 1 - i)) = some hi)
    (elo : .write (dst + i) ∈ c.events) (ehi : .write (dst + (L - 1 - i)) ∈ c.events)
    (wlo : writableAt s (dst + i) = true) (whi : writableAt s (dst + (L - 1 - i)) = true) :
    exchangeBytes s dst L c i =
      some { dmem := writeByte (writeByte c.dmem (dst + i) hi) (dst + (L - 1 - i)) lo,
             events := c.events ++ exchangeAccesses dst L i } := by
  have hread2 := memRead_eq_some (s := s) (c := { c with events := c.events ++ [.read (dst + i)] }).2
    ⟨.inr (List.mem_append_left _ ehi), hhi, rfl⟩
  rw [exchangeBytes, memRead_eq_some.2 ⟨.inr elo, hlo, rfl⟩, Option.bind_some, hread2, Option.bind_some,
    memWrite_eq_some.2 ⟨wlo, rfl⟩, Option.bind_some, memWrite_eq_some.2 ⟨whi, rfl⟩]
  simp [exchangeAccesses]

/-- The run `c'` is `c` after exchanges 0 to k − 1 of the L bytes `Out` at dst. -/
structure Exchanged (dst L : Nat) (Out : Nat → Byte) (c : BitsRun) (k : Nat) (c' : BitsRun) : Prop where
  inside : ∀ j < L, readByte c'.dmem (dst + j) = some (Out (if j < k ∨ L - 1 - j < k then L - 1 - j else j))
  outside : ∀ a, ¬(dst ≤ a ∧ a < dst + L) → readByte c'.dmem a = readByte c.dmem a
  events : c'.events = c.events ++ (List.range k).flatMap (exchangeAccesses dst L)

theorem exchanged_zero {dst L : Nat} {Out : Nat → Byte} {c : BitsRun}
    (h : ∀ j < L, readByte c.dmem (dst + j) = some (Out j)) : Exchanged dst L Out c 0 c :=
  ⟨fun j hj => by simpa using h j hj, fun _ _ => rfl, by simp⟩

theorem Exchanged.next {dst L k : Nat} {Out : Nat → Byte} {c d : BitsRun} (h : Exchanged dst L Out c k d)
    (hk : k < L / 2) :
    Exchanged dst L Out c (k + 1)
      { dmem := writeByte (writeByte d.dmem (dst + k) (Out (L - 1 - k))) (dst + (L - 1 - k)) (Out k),
        events := d.events ++ exchangeAccesses dst L k } where
  inside j hj := by
    by_cases hhi : j = L - 1 - k
    · have hback : L - 1 - j = k := by omega
      rw [← hhi, readByte_writeByte_same, if_pos (by omega), hback]
    · rw [readByte_writeByte_other _ _ (by omega)]
      by_cases hlo : j = k
      · rw [hlo, readByte_writeByte_same, if_pos (by omega)]
      · have hsame : j < k + 1 ∨ L - 1 - j < k + 1 ↔ j < k ∨ L - 1 - j < k := by omega
        rw [readByte_writeByte_other _ _ (by omega), h.inside j hj]
        simp only [hsame]
  outside a ha := by
    rw [readByte_writeByte_other _ _ (by omega), readByte_writeByte_other _ _ (by omega), h.outside a ha]
  events := by
    rw [h.events, List.range_succ, List.flatMap_append, List.flatMap_singleton, List.append_assoc]

/-- After L div 2 exchanges the order of the bytes is reversed; a middle byte is its own partner. -/
theorem Exchanged.reversed {dst L j : Nat} {Out : Nat → Byte} {c d : BitsRun} (h : Exchanged dst L Out c (L / 2) d)
    (hj : j < L) : readByte d.dmem (dst + j) = some (Out (L - 1 - j)) := by
  have hpartner : (if j < L / 2 ∨ L - 1 - j < L / 2 then L - 1 - j else j) = L - 1 - j := by
    split <;> omega
  rw [h.inside j hj, hpartner]

theorem bitsStep3_exchanged {s : State} {c : BitsRun} {dst L : Nat} {Out : Nat → Byte}
    (hout : ∀ k < L, readByte c.dmem (dst + k) = some (Out k)) (hwritten : ∀ k < L, .write (dst + k) ∈ c.events)
    (hw : ∀ k < L, HostWritable s (dst + k)) :
    ∃ c', bitsStep3 s dst L c = some c' ∧ Exchanged dst L Out c (L / 2) c' := by
  refine foldlM_range_reaches (L / 2) (exchanged_zero hout) fun k hk d hd => ⟨_, ?_, hd.next hk⟩
  have hlo : readByte d.dmem (dst + k) = some (Out k) := by
    rw [hd.inside k (by omega), if_neg (by omega)]
  have hhi : readByte d.dmem (dst + (L - 1 - k)) = some (Out (L - 1 - k)) := by
    rw [hd.inside _ (by omega), if_neg (by omega)]
  have hev : ∀ i < L, .write (dst + i) ∈ d.events := fun i hi =>
    hd.events ▸ List.mem_append_left _ (hwritten i hi)
  exact exchangeBytes_eq hlo hhi (hev k (by omega)) (hev _ (by omega)) (writableAt_iff.2 (hw k (by omega)))
    (writableAt_iff.2 (hw _ (by omega)))

/-- Settles O21: L div 2 exchanges reverse the order. -/
theorem byteOrderStep : Obligations.ByteOrderStep := by
  unfold Obligations.ByteOrderStep
  intro s c dst L Out hout hwritten hw
  obtain ⟨c', hrun, hc'⟩ := bitsStep3_exchanged hout hwritten hw
  exact ⟨c', hrun, fun _ hj => hc'.reversed hj, hc'.outside⟩

end Sys2Proof.Machine
end

section
/-! The completed REFLECT.BITS (R116, R118, R120 to R124): what an admitted command leaves, once, and the statements
about its frame, its accesses and its output bytes that follow. -/

namespace Sys2Proof.Machine

open Sys2Proof Sys2Proof.Claims

/-! ## What an admitted command leaves -/

/-- The output byte `Out[j]`: steps 1 and 2 stage it in input order, step 3 reverses the order. -/
def outputByte (n : Nat) (In : Nat → Byte) (j : Nat) : Byte := stagedByte n In ((n + 7) / 8 - 1 - j)

/-- The accesses of an admitted command: a transfer for each of the L bytes, then the exchanges. -/
def bitsAccesses (n src dst : Nat) : List Access :=
  ((List.range ((n + 7) / 8)).flatMap fun k => [.read (src + k), .write (dst + k)]) ++
    (List.range ((n + 7) / 8 / 2)).flatMap (exchangeAccesses dst ((n + 7) / 8))

/-- The three steps of an admitted command run to the end. -/
theorem bitsRun_of_ready {s : State} {n src dst : Nat} {In : Nat → Byte} (h : BitsReady s n src dst)
    (hin : InputIs s n src In) : ∃ c, bitsRun n src dst s = some c ∧ c.events = bitsAccesses n src dst ∧
      (∀ a, ¬(dst ≤ a ∧ a < dst + (n + 7) / 8) → readByte c.dmem a = readByte s.dmem a) ∧
        ∀ j < (n + 7) / 8, readByte c.dmem (dst + j) = some (outputByte n In j) := by
  obtain ⟨-, -, -, hw⟩ := h.bounds
  obtain ⟨c1, hrun1, hc1⟩ := bitsStep1_staged h hin
  obtain ⟨c2, hrun2, hc2⟩ := bitsStep2_staged h hin hc1
  have hwritten : ∀ k < (n + 7) / 8, .write (dst + k) ∈ c2.events := by
    intro k hk
    rw [hc2.events, List.mem_flatMap]
    exact ⟨k, List.mem_range.2 hk, by simp⟩
  obtain ⟨c3, hrun3, hc3⟩ := bitsStep3_exchanged hc2.written hwritten hw
  have hrun : bitsRun n src dst s = some c3 := by
    simp only [bitsRun, completeBytes, remainderBits, ceil8, hrun1, hrun2, hrun3, Option.bind_some]
  refine ⟨c3, hrun, ?_, fun a ha => ?_, fun j hj => hc3.reversed hj⟩
  · rw [hc3.events, hc2.events, bitsAccesses]
  · rw [hc3.outside a ha, hc2.outside a ha]

theorem stagedByte_congr {n k : Nat} {In In' : Nat → Byte} (hfull : ∀ k < n / 8, In k = In' k)
    (hpart : ∀ i < n % 8, (In (n / 8)).getLsbD i = (In' (n / 8)).getLsbD i) (hk : k < (n + 7) / 8) :
    stagedByte n In k = stagedByte n In' k := by
  by_cases hkm : k < n / 8
  · rw [stagedByte_complete In hkm, stagedByte_complete In' hkm, hfull k hkm]
  · have hm : k = n / 8 := by omega
    have hr8 : n % 8 ≤ 8 := by omega
    rw [hm, stagedByte_partial, stagedByte_partial]
    refine BitVec.eq_of_getLsbD_eq fun j _ => ?_
    rw [getLsbD_partialByte hr8, getLsbD_partialByte hr8, hpart _ (by omega)]

/-- The output depends on the complete input bytes and on the low r bits of the partial one only. -/
theorem outputByte_congr {n j : Nat} {In In' : Nat → Byte} (hfull : ∀ k < n / 8, In k = In' k)
    (hpart : ∀ i < n % 8, (In (n / 8)).getLsbD i = (In' (n / 8)).getLsbD i) (hj : j < (n + 7) / 8) :
    outputByte n In j = outputByte n In' j :=
  stagedByte_congr hfull hpart (by omega)

/-- What a completed REFLECT.BITS leaves: the answer, the accesses, and its output bytes in place. -/
structure BitsDone (s : State) (n src dst : Nat) (t : State) : Prop where
  state : t = answered .done (withBuffer t.dmem (bitsAccesses n src dst) s)
  outside : ∀ a, ¬(dst ≤ a ∧ a < dst + (n + 7) / 8) → readByte t.dmem a = readByte s.dmem a
  output : ∀ In, InputIs s n src In → OutputIs t n dst (outputByte n In)

theorem BitsDone.responses_eq {s t : State} {n src dst : Nat} (h : BitsDone s n src dst t) :
    t.responses = s.responses ++ [.done] := by
  rw [h.state, answered_responses, withBuffer_responses]

theorem BitsDone.events_eq {s t : State} {n src dst : Nat} (h : BitsDone s n src dst t) :
    t.events = s.events ++ bitsAccesses n src dst := by
  rw [h.state, answered_events, withBuffer_events]

theorem exec_bits_of_ready {s : State} {n src dst : Nat} (h : BitsReady s n src dst) :
    ∃ t, exec (.reflectBits n src dst) s = .next t ∧ BitsDone s n src dst t := by
  obtain ⟨In, hin⟩ := exists_inputIs h
  obtain ⟨c, hrun, hevents, houtside, hout⟩ := bitsRun_of_ready h hin
  refine ⟨_, exec_bits_of_run h hrun, by rw [hevents]; rfl, houtside, fun In' hin' j hj => ?_⟩
  have hsame : outputByte n In j = outputByte n In' j :=
    outputByte_congr (fun k hk => inputIs_unique hin hin' (by omega))
      (fun i hi => by rw [inputIs_unique hin hin' (by omega)]) hj
  exact hsame ▸ hout j hj

/-! ## The frame and the accesses (R116, R124) -/

theorem write_mem_bitsAccesses {n src dst a : Nat} :
    .write a ∈ bitsAccesses n src dst ↔ dst ≤ a ∧ a < dst + (n + 7) / 8 := by
  simp only [bitsAccesses, exchangeAccesses, List.mem_append, List.mem_flatMap, List.mem_range, List.mem_cons,
    List.not_mem_nil, Access.write.injEq, reduceCtorEq, false_or, or_false]
  constructor
  · rintro (⟨k, hk, rfl⟩ | ⟨i, hi, rfl | rfl⟩) <;> omega
  · exact fun ha => .inl ⟨a - dst, by omega, by omega⟩

theorem read_mem_bitsAccesses {n src dst a : Nat} (h : .read a ∈ bitsAccesses n src dst) :
    (src ≤ a ∧ a < src + (n + 7) / 8) ∨ (dst ≤ a ∧ a < dst + (n + 7) / 8) := by
  simp only [bitsAccesses, exchangeAccesses, List.mem_append, List.mem_flatMap, List.mem_range, List.mem_cons,
    List.not_mem_nil, Access.read.injEq, reduceCtorEq, or_false] at h
  rcases h with ⟨k, hk, rfl⟩ | ⟨i, hi, rfl | rfl⟩
  · exact .inl (by omega)
  · exact .inr (by omega)
  · exact .inr (by omega)

/-- Settles O23: the answered state, and where its accesses lie. -/
theorem bitsFrame : Obligations.BitsFrame := by
  unfold Obligations.BitsFrame
  intro s n src dst h
  obtain ⟨t, hexec, hdone⟩ := exec_bits_of_ready h
  refine ⟨t, bitsAccesses n src dst, hexec, ?_, ?_, hdone.responses_eq, hdone.events_eq, hdone.outside,
    fun a => write_mem_bitsAccesses.1, fun a ha => ?_, fun hne k hk => hdone.outside _ fun hin => ?_⟩
  · rw [hdone.state]
    rfl
  · rw [hdone.state, answered_port]
  · exact (read_mem_bitsAccesses ha).imp_right fun hd => ⟨write_mem_bitsAccesses.2 hd, hd⟩
  · exact h.apart.elim hne fun hshare => hshare ⟨src + k, by omega, hin⟩

/-- A transfer for each of the L bytes is one for each complete byte, then one for the partial byte, if any. -/
theorem flatMap_range_bytes {α : Type} (n : Nat) (f : Nat → List α) :
    (List.range ((n + 7) / 8)).flatMap f =
      (List.range (n / 8)).flatMap f ++ if n % 8 = 0 then [] else f (n / 8) := by
  by_cases hr : n % 8 = 0
  · have hL : (n + 7) / 8 = n / 8 := by omega
    rw [hL, if_pos hr, List.append_nil]
  · have hL : (n + 7) / 8 = n / 8 + 1 := by omega
    rw [hL, if_neg hr, List.range_succ, List.flatMap_append, List.flatMap_singleton]

/-- Settles O24: the accesses of the completed command, the transfers split at the partial byte. -/
theorem bitsAccessOrder : Obligations.BitsAccessOrder := by
  unfold Obligations.BitsAccessOrder
  intro s n src dst h
  obtain ⟨t, hexec, hdone⟩ := exec_bits_of_ready h
  refine ⟨t, hexec, ?_⟩
  rw [hdone.events_eq, bitsAccesses, flatMap_range_bytes]
  congr 2
  refine List.flatMap_congr fun i hi => ?_
  have hi := List.mem_range.1 hi
  have hpartner : dst + (n + 7) / 8 - 1 - i = dst + ((n + 7) / 8 - 1 - i) := by omega
  rw [exchangeAccesses, hpartner]

/-! ## The output bytes (R119) -/

theorem outputByte_of_whole {n j : Nat} (In : Nat → Byte) (hr : n % 8 = 0) (hj : j < (n + 7) / 8) :
    outputByte n In j = tableRead (In ((n + 7) / 8 - 1 - j)) :=
  stagedByte_complete In (by omega)

/-- With a partial byte the output starts with it. -/
theorem outputByte_zero_of_partial {n : Nat} (In : Nat → Byte) (hr : n % 8 ≠ 0) :
    outputByte n In 0 = partialByte (n % 8) (In (n / 8)) := by
  have hm : (n + 7) / 8 - 1 - 0 = n / 8 := by omega
  rw [outputByte, hm, stagedByte_partial]

theorem outputByte_of_partial {n j : Nat} (In : Nat → Byte) (hr : n % 8 ≠ 0) (h1 : 1 ≤ j) (hj : j ≤ n / 8) :
    outputByte n In j = tableRead (In (n / 8 - j)) := by
  have hm : (n + 7) / 8 - 1 - j = n / 8 - j := by omega
  rw [outputByte, hm, stagedByte_complete In (by omega)]

/-- Settles O25: the output sees the partial input byte through its low r bits, and the bounds check sees all of it. -/
theorem partialByteHighBitsIgnored : Obligations.PartialByteHighBitsIgnored := by
  unfold Obligations.PartialByteHighBitsIgnored
  refine ⟨fun s s' n src dst In In' h h' hin hin' hr hfull hpart => ?_, fun s n src dst hf hr hunread => ?_⟩
  · have hr8 : n % 8 ≤ 8 := by omega
    have hzero := outputByte_zero_of_partial In hr
    obtain ⟨t, hexec, hdone⟩ := exec_bits_of_ready h
    obtain ⟨t', hexec', hdone'⟩ := exec_bits_of_ready h'
    refine ⟨t, t', outputByte n In, hexec, hexec', hdone.output In hin, fun j hj => ?_,
      hzero.trans (partialByte_eq_reverse hr8 _), fun i hi => hzero ▸ getLsbD_partialByte_high hr8 _ hi⟩
    rw [outputByte_congr hfull hpart hj]
    exact hdone'.output In' hin' j hj
  · have hbounds : ¬BoundsOk s n src dst := fun ⟨_, _, hread, _⟩ => hunread (hread (n / 8) (by omega))
    exact ⟨_, exec_bits_of_not_boundsOk hf hbounds, rfl, rfl⟩

/-- Settles O28: the output bytes are a function of n and the input bytes. -/
theorem inPlaceEqualsDisjoint : Obligations.InPlaceEqualsDisjoint := by
  unfold Obligations.InPlaceEqualsDisjoint
  intro s s' n src dst buf In h _ h' hin hin'
  obtain ⟨t, hexec, hdone⟩ := exec_bits_of_ready h
  obtain ⟨t', hexec', hdone'⟩ := exec_bits_of_ready h'
  exact ⟨t, t', outputByte n In, hexec, hexec', hdone.output In hin, hdone'.output In hin'⟩

/-! ## Reflecting twice (R121) -/

/-- A completed command's output is the input of a command at its place in the same DMEM. -/
theorem BitsDone.input_of_dmem {s t t' : State} {n src dst : Nat} {In : Nat → Byte} (h : BitsDone s n src dst t)
    (hin : InputIs s n src In) (hdmem : t'.dmem = t.dmem) : InputIs t' n dst (outputByte n In) :=
  fun k hk => by rw [hdmem, h.output In hin k hk]

theorem outputByte_outputByte_of_whole {n k : Nat} (In : Nat → Byte) (hr : n % 8 = 0) (hk : k < (n + 7) / 8) :
    outputByte n (outputByte n In) k = In k := by
  have hback : (n + 7) / 8 - 1 - ((n + 7) / 8 - 1 - k) = k := by omega
  rw [outputByte_of_whole _ hr hk, outputByte_of_whole _ hr (by omega), tableRead_tableRead, hback]

/-- A count of 12 bits: the partial byte takes the low four bits of In[1], the other byte is T[In[0]]. -/
theorem outputByte_twelve (In : Nat → Byte) :
    outputByte 12 In 0 = partialByte 4 (In 1) ∧ outputByte 12 In 1 = rev (In 0) :=
  ⟨outputByte_zero_of_partial In (by decide),
    (outputByte_of_partial In (by decide) le_rfl (by decide)).trans (tableRead_eq_rev _)⟩

/-- R121's example: the one set bit ends in the high half of Out[1], which a second partial byte does not take. -/
theorem outputByte_twelve_of_one_zero {In : Nat → Byte} (h0 : In 0 = 0x01) (h1 : In 1 = 0x00) :
    outputByte 12 In 0 = 0x00 ∧ outputByte 12 In 1 = 0x80 ∧
      outputByte 12 (outputByte 12 In) 0 = 0x00 ∧ outputByte 12 (outputByte 12 In) 1 = 0x00 := by
  have hOut0 : outputByte 12 In 0 = 0x00 := by
    rw [(outputByte_twelve In).1, h1]
    decide
  have hOut1 : outputByte 12 In 1 = 0x80 := by
    rw [(outputByte_twelve In).2, h0]
    decide
  refine ⟨hOut0, hOut1, ?_, ?_⟩
  · rw [(outputByte_twelve _).1, hOut1]
    decide
  · rw [(outputByte_twelve _).2, hOut0]
    decide

/-- Settles O27: whole bytes are reversed twice; with n = 12 the one set bit is lost. -/
theorem bitsInvolutionForWholeBytes : Obligations.BitsInvolutionForWholeBytes := by
  unfold Obligations.BitsInvolutionForWholeBytes
  refine ⟨fun s m src dst h => ?_, fun s src dst h h0 h1 => ?_⟩
  · obtain ⟨In, hin⟩ := exists_inputIs h
    obtain ⟨t, hexec, hdone⟩ := exec_bits_of_ready h
    refine ⟨t, hexec, fun t' dst' hdmem h' => ?_⟩
    obtain ⟨u, hexec', hdone'⟩ := exec_bits_of_ready h'
    refine ⟨u, hexec', fun k hk => ?_⟩
    rw [hdone'.output _ (hdone.input_of_dmem hin hdmem) k (by omega),
      outputByte_outputByte_of_whole In (by omega) (by omega), hin k (by omega)]
  · obtain ⟨In, hin⟩ := exists_inputIs h
    have hIn0 : In 0 = 0x01 := Option.some.inj ((hin 0 (by decide)).symm.trans h0)
    have hIn1 : In 1 = 0x00 := Option.some.inj ((hin 1 (by decide)).symm.trans h1)
    obtain ⟨hOut0, hOut1, hBack0, hBack1⟩ := outputByte_twelve_of_one_zero hIn0 hIn1
    obtain ⟨t, hexec, hdone⟩ := exec_bits_of_ready h
    have hout := hdone.output In hin
    refine ⟨t, hexec, hOut0 ▸ hout 0 (by decide), hOut1 ▸ hout 1 (by decide), fun t' dst' hdmem h' => ?_⟩
    obtain ⟨u, hexec', hdone'⟩ := exec_bits_of_ready h'
    have hback := hdone'.output _ (hdone.input_of_dmem hin hdmem)
    exact ⟨u, hexec', hBack0 ▸ hback 0 (by decide), hBack1 ▸ hback 1 (by decide)⟩

/-! ## Agreement with the fixed-width reflects (R120) -/

/-- The table's entry for the byte of v at bit s is the byte of the reflected value as far from the other end. -/
theorem tableRead_extractLsb' {N a b : Nat} (hN : N ≤ 64) (hab : a + 8 + b = N) (v : BitVec N) :
    tableRead (v.extractLsb' a 8) = (v.reverse.setWidth 64).extractLsb' b 8 := by
  refine BitVec.eq_of_getLsbD_eq fun i hi => ?_
  have hbit : N - 1 - (b + i) = a + (7 - i) := by omega
  have hin : b + i < 64 ∧ b + i < N ∧ 7 - i < 8 := by omega
  obtain ⟨h64, hlt, h7⟩ := hin
  rw [getLsbD_tableRead, BitVec.getLsbD_extractLsb', BitVec.getLsbD_extractLsb', ← rev, ← zext, getLsbD_zext,
    getLsbD_rev, hbit, decide_eq_true h64, decide_eq_true hlt, decide_eq_true h7]
  simp

theorem width_mod_eight_of_fixedForm {N : Nat} {mk : PortWord → Instr} (hmk : FixedForm N mk) : N % 8 = 0 := by
  cases hmk <;> rfl

/-- Settles O26: byte by byte, in either order, the table's entries are the bytes of the reflected value. -/
theorem bitsAgreesWithFixedWidth : Obligations.BitsAgreesWithFixedWidth := by
  unfold Obligations.BitsAgreesWithFixedWidth
  intro N mk hmk v s src dst h
  have hN := width_le_of_fixedForm hmk
  have hr := width_mod_eight_of_fixedForm hmk
  have hop : operand N (v.setWidth 64) = v := operand_zext hN v
  obtain ⟨t, hexec, hdone⟩ := exec_bits_of_ready h
  refine ⟨_, _, t, rfl, exec_fixedForm_of_notFaulted hmk _ h.notFaulted, ?_, hexec, hdone.responses_eq,
    fun hin j hj => ?_, fun hin j hj => ?_⟩
  · rw [answered_responses, hop, rev, zext]
  · rw [hdone.output _ hin j hj, outputByte_of_whole _ hr hj, tableRead_extractLsb' (b := 8 * j) hN (by omega)]
  · rw [hdone.output _ hin j hj, outputByte_of_whole _ hr hj,
      tableRead_extractLsb' (b := N - 8 - 8 * j) hN (by omega)]

end Sys2Proof.Machine
end

section
/-! The closed form of REFLECT.BITS as integers (R119): a byte string's value bit by bit, the reversed input's bits, and
the output's value in both cases. -/

namespace Sys2Proof.Machine

open Sys2Proof Sys2Proof.Claims

theorem bytesValue_succ (B : Nat → Byte) (L : Nat) :
    bytesValue B (L + 1) = 2 ^ (8 * L) * (B L).toNat + bytesValue B L := by
  simp [bytesValue, List.range_succ, Nat.add_comm, Nat.mul_comm]

theorem bytesValue_lt (B : Nat → Byte) (L : Nat) : bytesValue B L < 2 ^ (8 * L) := by
  induction L with
  | zero => simp [bytesValue]
  | succ L ih =>
    have hbyte : (B L).toNat + 1 ≤ 2 ^ 8 := (B L).isLt
    calc bytesValue B (L + 1) = 2 ^ (8 * L) * (B L).toNat + bytesValue B L := bytesValue_succ B L
      _ < 2 ^ (8 * L) * ((B L).toNat + 1) := by rw [Nat.mul_succ]; omega
      _ ≤ 2 ^ (8 * L) * 2 ^ 8 := Nat.mul_le_mul_left _ hbyte
      _ = 2 ^ (8 * (L + 1)) := by rw [← Nat.pow_add, Nat.mul_succ]

/-- Bit i of a byte string's value is bit `i mod 8` of byte `i div 8`. -/
theorem testBit_bytesValue (B : Nat → Byte) (L i : Nat) :
    (bytesValue B L).testBit i = (decide (i < 8 * L) && (B (i / 8)).getLsbD (i % 8)) := by
  induction L with
  | zero => simp [bytesValue]
  | succ L ih =>
    rw [bytesValue_succ, Nat.testBit_two_pow_mul_add _ (bytesValue_lt B L), ih, BitVec.testBit_toNat]
    by_cases hlo : i < 8 * L
    · rw [if_pos hlo, decide_eq_true hlo, decide_eq_true (show i < 8 * (L + 1) by omega)]
    · rw [if_neg hlo]
      by_cases hhi : i < 8 * (L + 1)
      · have hbyte : i / 8 = L := by omega
        have hbit : i - 8 * L = i % 8 := by omega
        rw [decide_eq_true hhi, Bool.true_and, hbyte, hbit]
      · rw [decide_eq_false hhi, Bool.false_and]
        exact BitVec.getLsbD_of_ge _ _ (by omega)

/-- The reversal of the n-bit input string, R of R119. -/
def reversedInput (n : Nat) (In : Nat → Byte) : Nat :=
  (BitVec.ofNat n (bytesValue In ((n + 7) / 8) % 2 ^ n)).reverse.toNat

theorem testBit_reversedInput (n : Nat) (In : Nat → Byte) (i : Nat) :
    (reversedInput n In).testBit i = (decide (i < n) && (In ((n - 1 - i) / 8)).getLsbD ((n - 1 - i) % 8)) := by
  rw [reversedInput, BitVec.testBit_toNat, ← rev, getLsbD_rev]
  by_cases hi : i < n
  · have hlt : n - 1 - i < n := by omega
    have hbyte : n - 1 - i < 8 * ((n + 7) / 8) := by omega
    rw [BitVec.getLsbD_ofNat, Nat.testBit_mod_two_pow, testBit_bytesValue, decide_eq_true hlt, decide_eq_true hbyte,
      Bool.true_and, Bool.true_and, Bool.true_and]
  · rw [decide_eq_false hi, Bool.false_and, Bool.false_and]

theorem bytesValue_outputByte_of_whole {n : Nat} (In : Nat → Byte) (hr : n % 8 = 0) :
    bytesValue (outputByte n In) ((n + 7) / 8) = reversedInput n In := by
  refine Nat.eq_of_testBit_eq fun i => ?_
  have hn : i < 8 * ((n + 7) / 8) ↔ i < n := by omega
  rw [testBit_bytesValue, testBit_reversedInput, decide_eq_decide.2 hn]
  by_cases hi : i < n
  · have hbyte : (n + 7) / 8 - 1 - i / 8 = (n - 1 - i) / 8 := by omega
    have hbit : 7 - i % 8 = (n - 1 - i) % 8 := by omega
    rw [outputByte_of_whole In hr (by omega), getLsbD_tableRead, decide_eq_true (show i % 8 < 8 by omega),
      Bool.true_and, hbyte, hbit]
  · rw [decide_eq_false hi, Bool.false_and, Bool.false_and]

/-- The low r bits of R fill the partial byte, and the rest of R the bytes after it. -/
theorem bytesValue_outputByte_of_partial {n : Nat} (In : Nat → Byte) (hr : n % 8 ≠ 0) :
    bytesValue (outputByte n In) ((n + 7) / 8) =
      reversedInput n In % 2 ^ (n % 8) + 2 ^ 8 * (reversedInput n In / 2 ^ (n % 8)) := by
  have hr8 : n % 8 ≤ 8 := by omega
  have hlow : reversedInput n In % 2 ^ (n % 8) < 2 ^ 8 :=
    (Nat.mod_lt _ (Nat.two_pow_pos _)).trans_le (Nat.pow_le_pow_right (by decide) hr8)
  refine Nat.eq_of_testBit_eq fun i => ?_
  rw [Nat.add_comm (_ % _), Nat.testBit_two_pow_mul_add _ hlow, testBit_bytesValue, Nat.testBit_mod_two_pow,
    Nat.testBit_div_two_pow, testBit_reversedInput, testBit_reversedInput]
  by_cases h8 : i < 8
  · have hbyte : i / 8 = 0 := by omega
    have hbit : i % 8 = i := by omega
    rw [if_pos h8, decide_eq_true (show i < 8 * ((n + 7) / 8) by omega), Bool.true_and, hbyte, hbit,
      outputByte_zero_of_partial In hr, getLsbD_partialByte hr8]
    by_cases hir : i < n % 8
    · have hbyte' : (n - 1 - i) / 8 = n / 8 := by omega
      have hbit' : (n - 1 - i) % 8 = n % 8 - 1 - i := by omega
      rw [decide_eq_true (show i < n by omega), Bool.true_and, hbyte', hbit']
    · rw [decide_eq_false hir, Bool.false_and, Bool.false_and]
  · have hn : i < 8 * ((n + 7) / 8) ↔ i - 8 + n % 8 < n := by omega
    rw [if_neg h8, decide_eq_decide.2 hn]
    by_cases hi : i - 8 + n % 8 < n
    · have hbyte : n / 8 - i / 8 = (n - 1 - (i - 8 + n % 8)) / 8 := by omega
      have hbit : 7 - i % 8 = (n - 1 - (i - 8 + n % 8)) % 8 := by omega
      rw [outputByte_of_partial In hr (by omega) (by omega), getLsbD_tableRead,
        decide_eq_true (show i % 8 < 8 by omega), Bool.true_and, hbyte, hbit]
    · rw [decide_eq_false hi, Bool.false_and, Bool.false_and]

/-- Settles O22: the output bytes of the completed command, and their value bit by bit. -/
theorem bitsOutputClosedForm : Obligations.BitsOutputClosedForm := by
  unfold Obligations.BitsOutputClosedForm
  intro s n src dst In h hin
  obtain ⟨t, hexec, hdone⟩ := exec_bits_of_ready h
  exact ⟨t, outputByte n In, _, reversedInput n In, hexec, hdone.responses_eq, hdone.output In hin,
    fun hr j hj => outputByte_of_whole In hr hj,
    fun hr => ⟨(outputByte_zero_of_partial In hr).trans (partialByte_eq_reverse (by omega) _),
      fun j h1 hj => outputByte_of_partial In hr h1 hj⟩,
    rfl, rfl, bytesValue_outputByte_of_whole In, bytesValue_outputByte_of_partial In⟩

end Sys2Proof.Machine
end

section
/-! Faults (R140 to R147): the FAULTED block, the two faults of REFLECT.BITS, fault entry, and the order in which a
command's one response is chosen. -/

namespace Sys2Proof.Machine

open Sys2Proof Sys2Proof.Claims

/-! ## The FAULTED block (R146, R147) -/

theorem exec_of_faulted {s : State} (hf : faulted s = true) (i : Instr) :
    exec i s = .next (answered (.fault (fcode s)) s) := by
  cases i <;> exact unlessFaulted_of_faulted hf

/-- A reserved OP is answered like an instruction while FAULTED = 1. -/
theorem runCommand_of_faulted {s : State} (hf : faulted s = true) (c : Command) :
    runCommand c s = .next (answered (.fault (fcode s)) s) := by
  cases hd : decode s.cfg c with
  | ok i => rw [runCommand_of_ok hd, exec_of_faulted hf]
  | error e => rw [runCommand_of_error hd, answerIllegalOp, unlessFaulted_of_faulted hf, respond]

/-- Settles O14: the FAULTED check comes before the instruction, and before the reserved OP. -/
theorem faultedBlockAnswersStoredCode : Obligations.FaultedBlockAnswersStoredCode := by
  unfold Obligations.FaultedBlockAnswersStoredCode
  refine fun s hf => ⟨exec_of_faulted hf, fun c hrun => ?_⟩
  rw [step_of_runsNext hrun]
  exact runCommand_of_faulted hf c

/-- Settles O16: a step that changes STATUS is a reset, since fault entry needs FAULTED = 0. -/
theorem onlyResetLeavesFaulted : Obligations.OnlyResetLeavesFaulted := by
  unfold Obligations.OnlyResetLeavesFaulted
  intro s t hf hstep
  by_cases hsame : t.status = s.status
  · exact .inr ⟨hsame ▸ hf, by rw [hsame]⟩
  · rcases statusChangesOnlyByFaultOrReset.2 s t hstep hsame with hreset | ⟨hnot, -⟩
    · exact .inl hreset
    · exact absurd (hf.symm.trans hnot) Bool.noConfusion

/-! ## The faults of REFLECT.BITS (R142, R143) -/

/-- Settles O11: a failed check of bounds raises BUFFER_BOUNDS, and with n = 0 the answer is `Done`. -/
theorem bufferBoundsFaults : Obligations.BufferBoundsFaults := by
  unfold Obligations.BufferBoundsFaults
  exact ⟨fun s n src dst hf hb => exec_bits_of_not_boundsOk hf hb,
    fun s src dst hf hsrc hdst => ⟨_, zeroLengthTouchesNothing s src dst hf hsrc hdst, rfl⟩⟩

/-- Distinct regions that share an address overlap as R115 writes it; `spansOverlap_eq_false` is the converse. -/
theorem spansOverlap_eq_true {n src dst : Nat} (hne : src ≠ dst) (hshare : ShareAddress n src dst) :
    spansOverlap n src dst = true := by
  obtain ⟨a, hsrc, hdst⟩ := hshare
  rw [spansOverlap_iff, ceil8]
  omega

/-- With checks 1 to 3 passed, a partial overlap is BUFFER_OVERLAP (R143). -/
theorem exec_bits_of_overlap {s : State} {n src dst : Nat} (hf : NotFaulted s) (hb : BoundsOk s n src dst)
    (hne : src ≠ dst) (hshare : ShareAddress n src dst) :
    exec (.reflectBits n src dst) s = raiseFault .bufferOverlap s := by
  obtain ⟨hspan, hread, hwrite⟩ := boundsOk_iff_checks.1 hb
  have hfault : bitsFault n src dst s = some .bufferOverlap :=
    bitsFault_eq_overlap.2 ⟨hspan, hread, hwrite, spansOverlap_eq_true hne hshare⟩
  rw [exec_reflectBits, unlessFaulted_of_not hf]
  simp only [reflectBuffer, hfault]

/-- Settles O12: a partial overlap raises BUFFER_OVERLAP. -/
theorem bufferOverlapFaults : Obligations.BufferOverlapFaults := by
  unfold Obligations.BufferOverlapFaults
  exact fun s n src dst hf hb hne hshare => exec_bits_of_overlap hf hb hne hshare

/-! ## Fault entry (R145) -/

theorem faultCodeBits_cases (code : FaultCode) :
    faultCodeBits code = 1 ∨ faultCodeBits code = 2 ∨ faultCodeBits code = 3 := by
  cases code <;> decide

/-- What one step appends to the responses is determined by the step. -/
theorem response_unique {s t t' : State} {r r' : Response} (h : step s = .next t)
    (hr : t.responses = s.responses ++ [r]) (h' : step s = .next t') (hr' : t'.responses = s.responses ++ [r']) :
    r = r' := by
  rw [h] at h'
  cases h'
  simpa using hr.symm.trans hr'

/-- Settles O13: of the answers of a block that is not FAULTED, only fault entry is a `Fault`. -/
theorem faultEntryIsPrecise : Obligations.FaultEntryIsPrecise := by
  unfold Obligations.FaultEntryIsPrecise
  intro s t c code hrun hf hstep hresp
  have hanswer : ∀ u r, runCommand c s = .next u → u.responses = s.responses ++ [r] → .fault code = r :=
    fun u r hu hr => response_unique hstep hresp ((step_of_runsNext hrun).trans hu) hr
  rcases runCommand_cases c s with ⟨hfaulted, -⟩ | ⟨y, -, e⟩ | ⟨cause, -, e⟩ | ⟨n, src, dst, b, -, -, -, -, e⟩
  · exact absurd (hfaulted.symm.trans hf) Bool.noConfusion
  · cases hanswer _ _ e rfl
  · cases hanswer _ _ e rfl
    obtain ⟨hfaulted, hcode, -⟩ := faultStatus_fields cause
    rw [step_of_runsNext hrun, e] at hstep
    cases hstep
    exact ⟨faultCodeBits_cases cause, hfaulted, hcode, rfl⟩
  · cases hanswer _ _ e rfl

/-! ## One response by priority (R144) -/

/-- A REFLECT.BITS command on the port runs with the port's own values. -/
theorem step_of_bitsCommand {s : State} {c : Command} {n src dst : Nat} (hrun : RunsNext s c)
    (h : BitsCommand s.cfg c n src dst) : step s = exec (.reflectBits n src dst) s := by
  obtain ⟨hop, rfl, rfl, rfl, hn, hsrc, hdst⟩ := h
  rw [step_of_runsNext hrun, runCommand_of_ok (decode_of_bits_of_lt hop hn hsrc hdst)]

/-- A fixed-width OP on a block that is not FAULTED is answered with a value. -/
theorem step_of_fixed {s : State} {c : Command} (hrun : RunsNext s c) (hf : NotFaulted s) (hop : c.op.toNat < 0x8) :
    ∃ y, step s = .next (answered (.value y) s) := by
  obtain ⟨N, mk, hmk, hd⟩ := decode_of_fixed hop
  refine ⟨zext 64 (rev (operand N c.a)), ?_⟩
  rw [step_of_runsNext hrun, runCommand_of_ok (hd s.cfg c rfl), exec_fixedForm_of_notFaulted hmk c.a hf]

/-- Settles O15: the command has one response, and each case of the order says which one its step gives. -/
theorem oneFaultByPriority : Obligations.OneFaultByPriority := by
  unfold Obligations.OneFaultByPriority
  intro s c hrun
  obtain ⟨t, r, hstep, hport, hresp, -⟩ := oneResponsePerCommand s c hrun
  have hanswer : ∀ {u r'}, step s = .next u → u.responses = s.responses ++ [r'] → r = r' := response_unique hstep hresp
  refine ⟨t, r, hstep, hport, hresp, fun hf => ?_, fun hf hop => ?_, fun hf hop => ?_,
    fun n src dst hf hbits => ⟨fun hb => ?_, fun hb ⟨hne, hshare⟩ => ?_, fun hb hapart => ?_⟩⟩
  · exact hanswer ((faultedBlockAnswersStoredCode s (Bool.eq_true_of_not_eq_false hf)).2 c hrun) rfl
  · exact hanswer (reservedOpFaults s c hrun hop hf) rfl
  · obtain ⟨y, hy⟩ := step_of_fixed hrun hf hop
    exact ⟨y, hanswer hy rfl⟩
  · exact hanswer ((step_of_bitsCommand hrun hbits).trans (bufferBoundsFaults.1 s n src dst hf hb)) rfl
  · exact hanswer ((step_of_bitsCommand hrun hbits).trans (bufferOverlapFaults s n src dst hf hb hne hshare)) rfl
  · have hready : BitsReady s n src dst := ⟨hf, hb, or_iff_not_imp_left.2 fun hne hshare => hapart ⟨hne, hshare⟩⟩
    obtain ⟨u, hexec, hdone⟩ := exec_bits_of_ready hready
    exact hanswer ((step_of_bitsCommand hrun hbits).trans hexec) hdone.responses_eq

end Sys2Proof.Machine
end

section
/-! Reset (R160, R161): the step that a reset takes, and what it leaves of the machine. -/

namespace Sys2Proof.Machine

open Sys2Proof Sys2Proof.Claims

theorem resetInFlight_port (c : Command) (s : State) : (resetInFlight c s).port = none := by
  obtain ⟨m, d, es, h, -⟩ := resetInFlight_frame c s
  rw [h, resetBlock_port]

/-- Interrupting a command that is not REFLECT.BITS is a plain reset. -/
theorem resetInFlight_of_op_ne {c : Command} (hop : c.op ≠ 0x8) (s : State) : resetInFlight c s = resetBlock s := by
  rcases resetInFlight_cases c s with ⟨-, h⟩ | ⟨n, src, dst, hd, -⟩
  · exact h
  · exact absurd (op_of_decode_reflectBits hd) hop

/-- An interrupting reset changes DMEM only in the output region of a REFLECT.BITS command (R162). -/
theorem outputRegion_of_resetInFlight_dmem_ne {c : Command} {s : State} {a : Nat}
    (h : readByte (resetInFlight c s).dmem a ≠ readByte s.dmem a) :
    ∃ n src dst, decode s.cfg c = .ok (.reflectBits n src dst) ∧ dst ≤ a ∧ a < dst + (n + 7) / 8 := by
  rcases resetInFlight_cases c s with ⟨-, e⟩ | ⟨n, src, dst, hd, -⟩
  · rw [e, resetBlock_dmem] at h
    exact absurd rfl h
  · rw [resetInFlight_dmem hd a] at h
    split at h
    · next hin =>
      obtain ⟨hlo, hhi, -⟩ := hin
      exact ⟨n, src, dst, hd, hlo, hhi⟩
    · exact absurd rfl h

/-- The step in which a reset lands: between commands, or on the command in flight. -/
theorem step_of_resetLands {s : State} {rest : List HostAction} (h : ResetLands s rest) :
    (s.port = none ∧ step s = .next (resetBlock (withInbox rest s))) ∨
    ∃ c, s.port = some c ∧ step s = .next (resetInFlight c (withInbox rest s)) := by
  rcases h with hi | ⟨hp, hi⟩
  · cases hp : s.port with
    | none => exact .inl ⟨rfl, step_of_idle hp hi⟩
    | some c => exact .inr ⟨c, rfl, step_of_resetMeanwhile hp hi⟩
  · exact .inl ⟨hp, step_of_idle hp hi⟩

/-- Settles O37: between commands a reset changes no more than STATUS, and in flight no more than that and the output
region of a REFLECT.BITS command. -/
theorem resetClearsStatus : Obligations.ResetClearsStatus := by
  unfold Obligations.ResetClearsStatus
  intro s rest hlands
  rcases step_of_resetLands hlands with ⟨-, hstep⟩ | ⟨c, hp, hstep⟩
  · exact ⟨_, hstep, rfl, rfl, fun _ => rfl, fun a hne => absurd rfl hne⟩
  · refine ⟨_, hstep, resetInFlight_status c _, resetInFlight_port c _, fun hop => ?_, fun a hne => ?_⟩
    · rw [resetInFlight_of_op_ne (hop c hp)]
      rfl
    · obtain ⟨n, src, dst, hd, hlo, hhi⟩ := outputRegion_of_resetInFlight_dmem_ne hne
      exact ⟨c, n, src, dst, hp, hd, hlo, hhi⟩

end Sys2Proof.Machine
end

section
/-! A transaction written as one number (R60, R63, R70): its fields are read back, whatever the parameters; commands
written out bit by bit; and the operand of a signed form (R7, R70). -/

namespace Sys2Proof.Machine

open Sys2Proof Sys2Proof.Claims

/-! ## The number of a transaction (log entry 2) -/

/-- A number laid out as a low field of k bits and the rest above it: the low field. -/
theorem lowField_mod {k x : Nat} (hx : x < 2 ^ k) (y : Nat) : (x + 2 ^ k * y) % 2 ^ k = x := by
  rw [Nat.add_mul_mod_self_left, Nat.mod_eq_of_lt hx]

/-- A number laid out as a low field of k bits and the rest above it: the rest. -/
theorem lowField_div {k x : Nat} (hx : x < 2 ^ k) (y : Nat) : (x + 2 ^ k * y) / 2 ^ k = y := by
  rw [Nat.add_mul_div_left _ _ (Nat.two_pow_pos k), Nat.div_eq_of_lt hx, Nat.zero_add]

/-- The number of a transaction gives its fields back, each as wide as its port. -/
theorem commandOfBits_commandToBits (cfg : Config) (c : Command) :
    commandOfBits cfg (commandToBits cfg c) =
      { c with
        nbits := c.nbits % 2 ^ cfg.bitcountWidth
        src := c.src % 2 ^ cfg.addrWidth
        dst := c.dst % 2 ^ cfg.addrWidth } := by
  have hn : c.nbits % 2 ^ cfg.bitcountWidth < 2 ^ cfg.bitcountWidth := Nat.mod_lt _ (Nat.two_pow_pos _)
  have hs : c.src % 2 ^ cfg.addrWidth < 2 ^ cfg.addrWidth := Nat.mod_lt _ (Nat.two_pow_pos _)
  have hop : BitVec.ofNat 4 (commandToBits cfg c) = c.op :=
    BitVec.eq_of_toNat_eq (by rw [BitVec.toNat_ofNat, commandToBits, lowField_mod c.op.isLt])
  have ha : BitVec.ofNat 64 (commandToBits cfg c / 2 ^ 4) = c.a :=
    BitVec.eq_of_toNat_eq (by rw [BitVec.toNat_ofNat, commandToBits, lowField_div c.op.isLt, lowField_mod c.a.isLt])
  have hrest : commandToBits cfg c / 2 ^ 68 = c.nbits % 2 ^ cfg.bitcountWidth + 2 ^ cfg.bitcountWidth *
      (c.src % 2 ^ cfg.addrWidth + 2 ^ cfg.addrWidth * (c.dst % 2 ^ cfg.addrWidth)) := by
    rw [show (2 : Nat) ^ 68 = 2 ^ 4 * 2 ^ 64 from rfl, ← Nat.div_div_eq_div_mul, commandToBits,
      lowField_div c.op.isLt, lowField_div c.a.isLt]
  simp only [commandOfBits, hop, ha, Nat.pow_add, ← Nat.div_div_eq_div_mul, hrest, lowField_div hn, lowField_div hs,
    lowField_mod hn, lowField_mod hs, Nat.mod_mod]

/-- The decoder sees of NBITS, SRC and DST only the low bits, which are all that the number holds. -/
theorem decodeWord_commandToBits (cfg : Config) (c : Command) :
    decodeWord cfg (commandToBits cfg c) = decode cfg c := by
  rw [decodeWord, commandOfBits_commandToBits]
  simp only [decode, Nat.mod_mod]

/-- The command record of every instruction decodes back to it (R63, R70). -/
theorem decode_encode {cfg : Config} {i : Instr} (h : i.wellFormed cfg = true) : decode cfg (encode i) = .ok i := by
  cases i with
  | reflectBits n src dst => exact Laws.RecordRoundTrip.reflectBits n src dst cfg h
  | _ => rfl

/-- Settles O32: the number gives the record back, and the record the instruction. -/
theorem decodeEncodeAgree : Obligations.DecodeEncodeAgree := by
  unfold Obligations.DecodeEncodeAgree
  intro cfg i h
  rw [encodeWord, decodeWord_commandToBits, decode_encode h]

/-- Settles O31, by running the decoder on the five numbers. -/
theorem writtenOutCommandsDecode : Obligations.WrittenOutCommandsDecode := by
  unfold Obligations.WrittenOutCommandsDecode
  decide

/-! ## The operand of a signed form (R7, R70) -/

/-- From `2^(N−1)` on a pattern reads as negative. -/
theorem signedReading_of_le {N : Nat} {p : BitVec N} (h : 2 ^ (N - 1) ≤ p.toNat) :
    signedReading p = (p.toNat : Int) - 2 ^ N := by
  have hmsb : p.getMsbD 0 = true := by
    rw [← BitVec.msb, BitVec.msb_eq_decide, decide_eq_true h]
  rw [signedReading, if_pos hmsb]

/-- Settles O47: the pattern `2^N − v` lies in the upper half of the N-bit patterns, and zero extension keeps it. -/
theorem signedOperandPattern : Obligations.SignedOperandPattern := by
  unfold Obligations.SignedOperandPattern
  intro N v hN hv0 hv
  obtain ⟨hle, htwice⟩ : N ≤ 64 ∧ 2 ^ N = 2 * 2 ^ (N - 1) := by
    simp only [List.mem_cons, List.not_mem_nil, or_false] at hN
    rcases hN with rfl | rfl | rfl | rfl <;> decide
  have hnat : (BitVec.ofNat N (2 ^ N - v)).toNat = 2 ^ N - v := by
    rw [BitVec.toNat_ofNat, Nat.mod_eq_of_lt (by omega)]
  refine ⟨zext 64 (BitVec.ofNat N (2 ^ N - v)), ?_, ?_, ?_⟩
  · simp [signedOperand, hv0, hv]
  · rw [zext, BitVec.toNat_setWidth_of_le hle, hnat]
  · change signedReading (operand N (zext 64 (BitVec.ofNat N (2 ^ N - v)))) = _
    rw [operand_zext hle, signedReading_of_le (by omega), hnat, Nat.cast_sub (by omega)]
    push_cast
    ring

end Sys2Proof.Machine
end

section
/-! The invariant (R4, R25, R40): what each operation leaves of the machine, the legal state after reset, and every step
keeping it. -/

namespace Sys2Proof.Machine

open Sys2Proof Sys2Proof.Claims

/-! ## What each operation leaves of the machine -/

@[simp] theorem applyMove_cfg (m : HostMove) (s : State) : (applyMove m s).cfg = s.cfg := by cases m <;> rfl
@[simp] theorem applyMove_port (m : HostMove) (s : State) : (applyMove m s).port = s.port := by cases m <;> rfl
@[simp] theorem applyMove_responses (m : HostMove) (s : State) : (applyMove m s).responses = s.responses := by
  cases m <;> rfl
@[simp] theorem applyMove_abandoned (m : HostMove) (s : State) : (applyMove m s).abandoned = s.abandoned := by
  cases m <;> rfl

theorem resetInFlight_cfg (c : Command) (s : State) : (resetInFlight c s).cfg = s.cfg := by
  obtain ⟨m, d, es, h, -⟩ := resetInFlight_frame c s
  rw [h, resetBlock_cfg]

/-- A command that runs is answered once, and changes besides no more than STATUS, DMEM and the access record. -/
theorem runCommand_frame {c : Command} {s t : State} (h : runCommand c s = .next t) : ∃ r, t = { s with
    port := none, status := t.status, responses := s.responses ++ [r], dmem := t.dmem, events := t.events } := by
  rcases runCommand_cases c s with ⟨-, e⟩ | ⟨y, -, e⟩ | ⟨code, -, e⟩ | ⟨n, src, dst, b, -, -, -, -, e⟩ <;>
    rw [e] at h <;> cases h
  · exact ⟨_, rfl⟩
  · exact ⟨_, rfl⟩
  · exact ⟨_, rfl⟩
  · exact ⟨_, rfl⟩

/-! ## Legal STATUS and DMEM -/

theorem statusLegal_of_status_zero {s : State} (h : s.status = 0x00) : StatusLegal s := by
  simp [StatusLegal, fcode, faulted, h]

/-- STATUS as fault entry leaves it is legal, whatever it was. -/
theorem statusLegal_withStatus_faultStatus (code : FaultCode) (s : State) :
    StatusLegal (withStatus (faultStatus code) s) := by
  cases code <;> simp [StatusLegal, fcode, faulted, faultStatus, faultCodeBits]

/-- DMEM stays legal where an operation keeps the canonical form and adds only cells whose address exists. -/
theorem dmemLegal_of_mem {s t : State} (h : DmemLegal s) (hcfg : t.cfg = s.cfg)
    (hwf : Memory.wf s.dmem → Memory.wf t.dmem) (hmem : ∀ c ∈ t.dmem, c ∈ s.dmem ∨ c.1 < s.cfg.dmemSize) :
    DmemLegal t := by
  obtain ⟨hs, hlt⟩ := h
  exact ⟨hwf hs, fun c hc => hcfg ▸ (hmem c hc).elim (hlt c) id⟩

theorem applyMove_dmemLegal {m : HostMove} {s : State} (h : DmemLegal s)
    (ha : ∀ a, moveAddr m = some a → a < s.cfg.dmemSize) : DmemLegal (applyMove m s) := by
  cases m with
  | statusRead => exact h
  | dmemRead a => exact h
  | dmemWrite a v =>
    refine dmemLegal_of_mem h rfl (fun hwf => writeByte_wf hwf a v) fun c hc => ?_
    rcases mem_writeByte hc with rfl | hc
    · exact .inr (ha a rfl)
    · exact .inl hc

/-- A REFLECT.BITS run that passed its checks writes only addresses that exist (R50). -/
theorem bitsRun_dmemLegal {n src dst : Nat} {s : State} {b : BitsRun} (h : DmemLegal s)
    (hf : bitsFault n src dst s = none) (hrun : bitsRun n src dst s = some b) :
    DmemLegal (withBuffer b.dmem b.events s) := by
  obtain ⟨hwf, hmem⟩ := bitsRun_mem hrun
  obtain ⟨hspans, -⟩ := bitsFault_eq_none.1 hf
  obtain ⟨-, hdst⟩ := spansInDmem_iff.1 hspans
  exact dmemLegal_of_mem h rfl hwf fun c hc => (hmem c hc).imp_right fun ⟨_, hlt⟩ => Nat.lt_of_lt_of_le hlt hdst

/-- An interrupting reset draws only bytes whose address exists (R40, R162). -/
theorem resetInFlight_dmemLegal {s : State} (c : Command) (h : DmemLegal s) : DmemLegal (resetInFlight c s) := by
  rcases resetInFlight_cases c s with ⟨-, e⟩ | ⟨n, src, dst, -, e⟩
  · rw [e]
    exact h
  · rw [e]
    obtain ⟨hwf, hmem⟩ := drawSpan_mem dst (bytesInDmem s.cfg dst (ceil8 n))
      (withBuffer s.dmem [.cut src dst (ceil8 n)] s)
    refine dmemLegal_of_mem h (e ▸ resetInFlight_cfg c s) hwf fun x hx => (hmem x hx).imp_right fun ⟨hlo, hhi⟩ => ?_
    obtain ⟨k, hk⟩ := Nat.exists_eq_add_of_le hlo
    rw [hk]
    exact (lt_bytesInDmem_iff.1 (show k < bytesInDmem s.cfg dst (ceil8 n) by omega)).2

/-! ## Every operation keeps the invariant -/

theorem resetInFlight_legal {s : State} (c : Command) (h : Legal s) : Legal (resetInFlight c s) := by
  obtain ⟨hcfg, -, hdmem⟩ := h
  exact ⟨(resetInFlight_cfg c s).symm ▸ hcfg, statusLegal_of_status_zero (resetInFlight_status c s),
    resetInFlight_dmemLegal c hdmem⟩

theorem resetBlock_legal {s : State} (h : Legal s) : Legal (resetBlock s) := by
  obtain ⟨hcfg, -, hdmem⟩ := h
  exact ⟨hcfg, statusLegal_of_status_zero rfl, hdmem⟩

theorem hostMove_legal {m : HostMove} {s t : State} (h : Legal s) (hm : hostMove m s = .next t) : Legal t := by
  obtain ⟨hcfg, hstatus, hdmem⟩ := h
  obtain ⟨rfl, ha⟩ := hostMove_eq_next hm
  refine ⟨(applyMove_cfg m s).symm ▸ hcfg, ?_, applyMove_dmemLegal hdmem ha⟩
  simpa only [StatusLegal, fcode, faulted, applyMove_status] using hstatus

theorem hostAction_legal {act : HostAction} {s t : State} (h : Legal s) (ha : hostAction act s = .next t) :
    Legal t := by
  cases act with
  | issue c rd wr => cases ha; exact h
  | move m => exact hostMove_legal h ha
  | meanwhile m => exact hostMove_legal h ha
  | reset => cases ha; exact resetBlock_legal h
  | resetMeanwhile => cases ha; exact resetBlock_legal h

theorem runCommand_legal {c : Command} {s t : State} (h : Legal s) (hc : runCommand c s = .next t) : Legal t := by
  obtain ⟨hcfg, hstatus, hdmem⟩ := h
  rcases runCommand_cases c s with ⟨-, e⟩ | ⟨y, -, e⟩ | ⟨code, -, e⟩ | ⟨n, src, dst, b, -, -, hf, hrun, e⟩ <;>
    rw [e] at hc <;> cases hc
  · exact ⟨hcfg, hstatus, hdmem⟩
  · exact ⟨hcfg, hstatus, hdmem⟩
  · exact ⟨hcfg, statusLegal_withStatus_faultStatus code s, hdmem⟩
  · have hdone := bitsRun_dmemLegal hdmem hf hrun
    exact ⟨hcfg, hstatus, hdone⟩

theorem step_legal {s t : State} (h : Legal s) (hstep : step s = .next t) : Legal t := by
  rcases step_cases hstep with ⟨-, -, rfl⟩ | ⟨act, rest, -, -, ha⟩ | ⟨c, -, hc⟩ | ⟨c, m, rest, -, -, hm⟩ |
    ⟨c, rest, -, -, rfl⟩
  · exact h
  · exact hostAction_legal (s := withInbox rest s) h ha
  · exact runCommand_legal h hc
  · exact hostMove_legal (s := withInbox rest s) h (moveInFlight_eq_next hm).1
  · exact resetInFlight_legal (s := withInbox rest s) c h

/-! ## The parameters -/

theorem hostMove_cfg {m : HostMove} {s t : State} (h : hostMove m s = .next t) : t.cfg = s.cfg := by
  rw [(hostMove_eq_next h).1, applyMove_cfg]

theorem hostAction_cfg {act : HostAction} {s t : State} (h : hostAction act s = .next t) : t.cfg = s.cfg := by
  cases act with
  | issue c rd wr => cases h; rfl
  | move m => exact hostMove_cfg h
  | meanwhile m => exact hostMove_cfg h
  | reset => cases h; rfl
  | resetMeanwhile => cases h; rfl

theorem runCommand_cfg {c : Command} {s t : State} (h : runCommand c s = .next t) : t.cfg = s.cfg := by
  obtain ⟨r, ht⟩ := runCommand_frame h
  rw [ht]

theorem step_cfg {s t : State} (hstep : step s = .next t) : t.cfg = s.cfg := by
  rcases step_cases hstep with ⟨-, -, rfl⟩ | ⟨act, rest, -, -, ha⟩ | ⟨c, -, hc⟩ | ⟨c, m, rest, -, -, hm⟩ |
    ⟨c, rest, -, -, rfl⟩
  · rfl
  · exact hostAction_cfg (s := withInbox rest s) ha
  · exact runCommand_cfg hc
  · exact hostMove_cfg (s := withInbox rest s) (moveInFlight_eq_next hm).1
  · exact resetInFlight_cfg c _

/-- Settles O49: each of the five kinds of step keeps the parameters, STATUS and DMEM legal. -/
theorem stepKeepsInvariant : Obligations.StepKeepsInvariant := by
  unfold Obligations.StepKeepsInvariant
  exact fun s t h hstep => ⟨step_legal h hstep, step_cfg hstep⟩

theorem afterReset_legal {cfg : Config} {dmem : Memory} (inbox : List HostAction) (hcfg : cfg.wf)
    (hwf : Memory.wf dmem) (hlt : ∀ c ∈ dmem, c.1 < 2 ^ cfg.addrWidth) : Legal (State.afterReset cfg dmem inbox) :=
  ⟨hcfg, statusLegal_of_status_zero rfl, hwf, hlt⟩

/-- Settles O48: `State.reset` is the state after reset under parameters of 16 with an empty DMEM. -/
theorem resetMeetsInvariant : Obligations.ResetMeetsInvariant := by
  unfold Obligations.ResetMeetsInvariant
  exact ⟨afterReset_legal [] (by decide) List.Pairwise.nil (by simp),
    fun cfg dmem inbox hcfg hwf hlt => afterReset_legal inbox hcfg hwf hlt⟩

end Sys2Proof.Machine
end

section
/-! Commands (R28, R52, R160, R162, R172): a command that is placed or issued runs and is answered, one that a reset
interrupts is not, and every one is counted until the run ends. -/

namespace Sys2Proof.Machine

open Sys2Proof Sys2Proof.Claims

/-! ## A command placed or issued (R52) -/

/-- A command placed on the port runs in the next step: nothing that would land before it is left (log entry 4). -/
theorem runsNext_placeCommand (c : Command) (s : State) : RunsNext (placeCommand c s) c := by
  have hhead : ∀ act, (s.inbox.dropWhile landsInFlight).head? = some act → landsInFlight act = false := by
    intro act h
    simpa only [h] using List.head?_dropWhile_not landsInFlight s.inbox
  exact ⟨rfl, fun h => absurd (hhead _ h) Bool.noConfusion, fun m h => absurd (hhead _ h) Bool.noConfusion⟩

/-- Settles O34: a command in flight with nothing landing before it runs as the instruction it decodes to. -/
theorem stepRunsDecodedCommand : Obligations.StepRunsDecodedCommand := by
  unfold Obligations.StepRunsDecodedCommand
  have hrun : ∀ s c i, RunsNext s c → decode s.cfg c = .ok i → step s = exec i s := fun s c i h hd => by
    rw [step_of_runsNext h, runCommand_of_ok hd]
  exact ⟨hrun, fun s nbits w i hd => hrun _ _ i (runsNext_placeCommand _ s) hd⟩

/-- Settles O36: the issue fills the port, and the command there then has its one response. -/
theorem issuedCommandIsAnswered : Obligations.IssuedCommandIsAnswered := by
  unfold Obligations.IssuedCommandIsAnswered
  intro s c rd wr rest hp hi hr hm
  obtain ⟨u, r, hstep, hport, hresp, -, hinbox, -⟩ :=
    oneResponsePerCommand (issueCommand c rd wr (withInbox rest s)) c ⟨rfl, hr, hm⟩
  exact ⟨_, u, r, step_of_idle hp hi, rfl, hstep, hport, hinbox, hresp⟩

/-! ## A reset and the command in flight (R160, R162) -/

theorem resetInFlight_responses (c : Command) (s : State) : (resetInFlight c s).responses = s.responses := by
  obtain ⟨m, d, es, h, -⟩ := resetInFlight_frame c s
  rw [h, resetBlock_responses]

theorem resetInFlight_inbox (c : Command) (s : State) : (resetInFlight c s).inbox = s.inbox := by
  obtain ⟨m, d, es, h, -⟩ := resetInFlight_frame c s
  rw [h, resetBlock_inbox]

/-- The interrupted command is counted as left without a response. -/
theorem resetInFlight_abandoned {c : Command} {s : State} (hp : s.port = some c) :
    (resetInFlight c s).abandoned = s.abandoned + 1 := by
  obtain ⟨m, d, es, h, -⟩ := resetInFlight_frame c s
  rw [h, resetBlock_abandoned]
  exact congrArg _ (inFlightCount_some s c hp)

/-- A plain reset waits for the response of the command in flight. -/
theorem runsNext_of_reset {s : State} {c : Command} {rest : List HostAction} (hp : s.port = some c)
    (hi : s.inbox = .reset :: rest) : RunsNext s c :=
  ⟨hp, by simp [hi], by simp [hi]⟩

/-- Settles O38: before the response the reset takes the command's step, after it the next one. -/
theorem resetBeforeOrAfterResponse : Obligations.ResetBeforeOrAfterResponse := by
  unfold Obligations.ResetBeforeOrAfterResponse
  refine fun s c rest hp => ⟨fun hi => ?_, fun hi => ?_⟩
  · exact ⟨_, step_of_resetMeanwhile hp hi, resetInFlight_status c _, resetInFlight_port c _,
      resetInFlight_responses c _, resetInFlight_inbox c _, resetInFlight_abandoned (s := withInbox rest s) hp⟩
  · have hruns := runsNext_of_reset hp hi
    obtain ⟨t, r, hstep, hport, hresp, -, hinbox, -⟩ := oneResponsePerCommand s c hruns
    obtain ⟨_, ht⟩ := runCommand_frame ((step_of_runsNext hruns).symm.trans hstep)
    refine ⟨t, r, hstep, hport, hresp, by rw [ht], ?_⟩
    rw [step_of_idle hport (hinbox.trans hi)]
    simp [hostAction, resetBlock, withInbox, hport, inFlightCount]

/-- Settles O39: the reset takes the step, and DMEM is then what `resetInFlight_dmem` says. -/
theorem interruptingReset : Obligations.InterruptingReset := by
  unfold Obligations.InterruptingReset
  intro s c rest hp hi
  refine ⟨_, step_of_resetMeanwhile hp hi, resetInFlight_status c _, resetInFlight_port c _,
    resetInFlight_responses c _, resetInFlight_inbox c _, fun hop => ?_, fun n src dst hbits => ?_⟩
  · rw [resetInFlight_of_op_ne hop]
    rfl
  · obtain ⟨hop, rfl, rfl, rfl, hn, hsrc, hdst⟩ := hbits
    have hd : decode (withInbox rest s).cfg c = .ok (.reflectBits c.nbits c.src c.dst) :=
      decode_of_bits_of_lt hop hn hsrc hdst
    refine ⟨fun a hout => ?_, fun k hk hlt => ?_⟩
    · rw [resetInFlight_dmem hd, if_neg (fun ⟨hlo, hhi, _⟩ => hout ⟨hlo, hhi⟩), withInbox_dmem]
    · rw [resetInFlight_dmem hd, if_pos ⟨Nat.le_add_right _ _, Nat.add_lt_add_left hk _, hlt⟩, withInbox_draws,
        Nat.add_sub_cancel_left]

/-! ## Counting commands (R28, R160) -/

/-- The step takes an issue of the host. -/
def takesIssue (s : State) : Bool := s.port.isNone && s.inbox.head?.any issues

theorem takesIssue_iff {s : State} :
    takesIssue s = true ↔ s.port = none ∧ ∃ c rd wr rest, s.inbox = .issue c rd wr :: rest := by
  rcases hi : s.inbox with _ | ⟨act, rest⟩
  · simp [takesIssue, hi]
  · cases act <;> simp [takesIssue, hi, issues]

theorem commandsIssued_hostMove {m : HostMove} {s t : State} (h : hostMove m s = .next t) :
    commandsIssued t = commandsIssued s := by
  rw [(hostMove_eq_next h).1]
  simp [commandsIssued]

/-- With no command in flight, an issue adds one. -/
theorem commandsIssued_hostAction {act : HostAction} {s t : State} (hp : s.port = none)
    (h : hostAction act s = .next t) : commandsIssued t = commandsIssued s + (issues act).toNat := by
  cases act with
  | issue c rd wr => cases h; simp [commandsIssued, issues, hp]
  | move m => exact commandsIssued_hostMove h
  | meanwhile m => exact commandsIssued_hostMove h
  | reset => cases h; simp [commandsIssued, issues, hp]
  | resetMeanwhile => cases h; simp [commandsIssued, issues, hp]

/-- A command that runs is no longer in flight, and answered instead. -/
theorem commandsIssued_runCommand {c : Command} {s t : State} (hp : s.port = some c)
    (h : runCommand c s = .next t) : commandsIssued t = commandsIssued s := by
  obtain ⟨r, ht⟩ := runCommand_frame h
  rw [ht]
  simp [commandsIssued, hp]
  omega

/-- An interrupted command is no longer in flight, and counted as left unanswered instead. -/
theorem commandsIssued_resetInFlight {c : Command} {s : State} (hp : s.port = some c) :
    commandsIssued (resetInFlight c s) = commandsIssued s := by
  simp [commandsIssued, resetInFlight_responses, resetInFlight_abandoned hp, resetInFlight_port, hp]
  omega

theorem step_commandsIssued {s t : State} (h : step s = .next t) :
    commandsIssued t = commandsIssued s + (takesIssue s).toNat := by
  rcases step_cases h with ⟨hp, hi, rfl⟩ | ⟨act, rest, hp, hi, ha⟩ | ⟨c, hp, hc⟩ | ⟨c, m, rest, hp, -, hm⟩ |
    ⟨c, rest, hp, -, rfl⟩
  · simp [takesIssue, hi]
  · rw [commandsIssued_hostAction (s := withInbox rest s) hp ha]
    simp [takesIssue, hp, hi, commandsIssued]
  · rw [commandsIssued_runCommand hp hc]
    simp [takesIssue, hp]
  · rw [commandsIssued_hostMove (moveInFlight_eq_next hm).1]
    simp [takesIssue, hp, commandsIssued]
  · rw [commandsIssued_resetInFlight (s := withInbox rest s) hp]
    simp [takesIssue, hp, commandsIssued]

/-- Settles O40: what each kind of step does to the three counts. -/
theorem everyCommandIsCounted : Obligations.EveryCommandIsCounted := by
  unfold Obligations.EveryCommandIsCounted
  intro s t h
  rw [← takesIssue_iff, step_commandsIssued h]
  exact ⟨fun hissue => by rw [hissue]; rfl, fun hissue => by rw [Bool.eq_false_of_not_eq_true hissue]; rfl⟩

/-! ## The end of a run (R172) -/

theorem runEnd_of_runOver {s : State} (h : RunOver s) (fuel : Nat) : runEnd fuel s = some s := by
  unfold runEnd
  exact if_pos h

/-- A run ends where it is over, and otherwise where the run from the next state ends. -/
theorem runEnd_eq_some {fuel : Nat} {s e : State} : runEnd fuel s = some e ↔
    (RunOver s ∧ e = s) ∨ ¬RunOver s ∧ ∃ k t, fuel = k + 1 ∧ step s = .next t ∧ runEnd k t = some e := by
  by_cases hover : RunOver s
  · rw [runEnd_of_runOver hover]
    exact ⟨fun h => .inl ⟨hover, (Option.some.inj h).symm⟩,
      fun h => h.elim (fun ⟨_, he⟩ => he ▸ rfl) fun ⟨hnot, _⟩ => absurd hover hnot⟩
  · rw [runEnd.eq_def, if_neg hover]
    cases fuel with
    | zero => simp [hover]
    | succ fuel => cases step s <;> simp [hover]

/-- What every step keeps holds at the end of the run. -/
theorem runEnd_keeps {P : State → Prop} (hP : ∀ s t, P s → step s = .next t → P t) {fuel : Nat} {s e : State}
    (hs : P s) (h : runEnd fuel s = some e) : P e := by
  induction fuel using Nat.strong_induction_on generalizing s with
  | h fuel ih =>
    rcases runEnd_eq_some.1 h with ⟨-, rfl⟩ | ⟨-, k, t, rfl, hstep, ht⟩
    · exact hs
    · exact ih k (Nat.lt_succ_self k) (hP s t hs hstep) ht

theorem runOver_of_runEnd {fuel : Nat} {s e : State} (h : runEnd fuel s = some e) : RunOver e := by
  induction fuel using Nat.strong_induction_on generalizing s with
  | h fuel ih =>
    rcases runEnd_eq_some.1 h with ⟨hover, rfl⟩ | ⟨-, k, t, rfl, -, ht⟩
    · exact hover
    · exact ih k (Nat.lt_succ_self k) ht

/-- The fuel does not choose the end. -/
theorem runEnd_unique {fuel fuel' : Nat} {s e e' : State} (h : runEnd fuel s = some e)
    (h' : runEnd fuel' s = some e') : e' = e := by
  induction fuel using Nat.strong_induction_on generalizing s fuel' with
  | h fuel ih =>
    rcases runEnd_eq_some.1 h with ⟨hover, rfl⟩ | ⟨hover, k, t, rfl, hstep, ht⟩
    · exact Option.some.inj (h'.symm.trans (runEnd_of_runOver hover fuel'))
    · rcases runEnd_eq_some.1 h' with ⟨hover', -⟩ | ⟨-, k', t', rfl, hstep', ht'⟩
      · exact absurd hover' hover
      · cases hstep.symm.trans hstep'
        exact ih k (Nat.lt_succ_self k) ht ht'

/-- A reset has left a command without a response, or the next step is one that does. -/
def LeftUnanswered (s : State) : Prop :=
  s.abandoned ≠ 0 ∨ s.port.isSome = true ∧ s.inbox.head? = some .resetMeanwhile

theorem abandoned_hostMove {m : HostMove} {s t : State} (h : hostMove m s = .next t) : t.abandoned = s.abandoned := by
  rw [(hostMove_eq_next h).1, applyMove_abandoned]

theorem abandoned_le_hostAction {act : HostAction} {s t : State} (h : hostAction act s = .next t) :
    s.abandoned ≤ t.abandoned := by
  cases act with
  | issue c rd wr => cases h; exact Nat.le_refl _
  | move m => exact (abandoned_hostMove h).ge
  | meanwhile m => exact (abandoned_hostMove h).ge
  | reset => cases h; exact Nat.le_add_right _ _
  | resetMeanwhile => cases h; exact Nat.le_add_right _ _

theorem abandoned_le_step {s t : State} (h : step s = .next t) : s.abandoned ≤ t.abandoned := by
  rcases step_cases h with ⟨-, -, rfl⟩ | ⟨act, rest, -, -, ha⟩ | ⟨c, -, hc⟩ | ⟨c, m, rest, -, -, hm⟩ |
    ⟨c, rest, hp, -, rfl⟩
  · exact Nat.le_refl _
  · exact abandoned_le_hostAction (s := withInbox rest s) ha
  · obtain ⟨r, ht⟩ := runCommand_frame hc
    rw [ht]
  · exact (abandoned_hostMove (s := withInbox rest s) (moveInFlight_eq_next hm).1).ge
  · rw [resetInFlight_abandoned (s := withInbox rest s) hp]
    exact Nat.le_add_right _ _

/-- The count of commands left unanswered never goes back to 0. -/
theorem leftUnanswered_step (s t : State) (hs : LeftUnanswered s) (h : step s = .next t) : LeftUnanswered t := by
  refine .inl ?_
  rcases hs with habandoned | ⟨hsome, hhead⟩
  · have hle := abandoned_le_step h
    omega
  · obtain ⟨c, hp⟩ := Option.isSome_iff_exists.1 hsome
    obtain ⟨rest, hi⟩ := List.head?_eq_some_iff.1 hhead
    cases (step_of_resetMeanwhile hp hi).symm.trans h
    rw [resetInFlight_abandoned (s := withInbox rest s) hp]
    exact Nat.succ_ne_zero _

theorem not_leftUnanswered_of_runOver {s : State} (h : RunOver s) : ¬LeftUnanswered s := by
  obtain ⟨hp, habandoned, -⟩ := h
  simp [LeftUnanswered, hp, habandoned]

theorem no_issue_of_runOver {s : State} (h : RunOver s) : ∀ act ∈ s.inbox, ∀ c rd wr, act ≠ .issue c rd wr := by
  obtain ⟨-, -, hall⟩ := h
  rintro _ hmem c rd wr rfl
  exact absurd (List.all_eq_true.1 hall _ hmem) Bool.false_ne_true

/-- Settles O41: a run has at most one end, where it is over, and none once a command is left unanswered. -/
theorem runEndsOnce : Obligations.RunEndsOnce := by
  unfold Obligations.RunEndsOnce
  refine fun s => ⟨runEnd_of_runOver, fun fuel e h => ⟨?_, fun fuel' e' => runEnd_unique h⟩, ?_, fun fuel hleft => ?_⟩
  · obtain ⟨hp, habandoned, -⟩ := runOver_of_runEnd h
    exact ⟨hp, habandoned, no_issue_of_runOver (runOver_of_runEnd h)⟩
  · rintro ⟨⟨fuel, e, hend, hsafe⟩, fuel', e', hend', hfaulted⟩
    cases runEnd_unique hend hend'
    exact absurd (hsafe.symm.trans hfaulted) Bool.false_ne_true
  · refine Option.eq_none_iff_forall_ne_some.2 fun e h => ?_
    exact not_leftUnanswered_of_runOver (runOver_of_runEnd h) (runEnd_keeps leftUnanswered_step hleft h)

end Sys2Proof.Machine
end

section
/-! The host at DMEM (R40, R56, R171): an access while a command is in flight, an access past the end, and everything
that changes a byte. -/

namespace Sys2Proof.Machine

open Sys2Proof Sys2Proof.Claims

/-! ## The regions of a command in flight (R56) -/

theorem inCommandRegion_iff {cfg : Config} {c : Command} {n src dst : Nat}
    (hd : decode cfg c = .ok (.reflectBits n src dst)) (a : Nat) : inCommandRegion cfg c a = true ↔
      (src ≤ a ∧ a < src + (n + 7) / 8) ∨ (dst ≤ a ∧ a < dst + (n + 7) / 8) := by
  simp only [inCommandRegion, commandBuffers_eq_some.2 hd, Bool.or_eq_true, inSpan_iff, ceil8]

/-- An address that no region of the command holds, if it has any. -/
theorem inCommandRegion_eq_false {cfg : Config} {c : Command} {a : Nat}
    (h : ∀ n src dst, decode cfg c = .ok (.reflectBits n src dst) →
      ¬((src ≤ a ∧ a < src + (n + 7) / 8) ∨ (dst ≤ a ∧ a < dst + (n + 7) / 8))) : inCommandRegion cfg c a = false := by
  rcases hb : commandBuffers cfg c with _ | ⟨n, src, dst⟩
  · simp only [inCommandRegion, hb]
  · have hd := commandBuffers_eq_some.1 hb
    exact Bool.eq_false_iff.2 fun hin => h n src dst hd ((inCommandRegion_iff hd a).1 hin)

theorem inCommandRegion_of_op_ne {c : Command} (hop : c.op ≠ 0x8) (cfg : Config) (a : Nat) :
    inCommandRegion cfg c a = false :=
  inCommandRegion_eq_false fun _ _ _ hd => absurd (op_of_decode_reflectBits hd) hop

/-! ## An access of the host (R40, R48) -/

theorem moveAddr_of_accessTo {m : HostMove} {a : Nat} (h : AccessTo m a) : moveAddr m = some a := by
  rcases h with rfl | ⟨v, rfl⟩ <;> rfl

/-- An access in the regions of the command in flight stops the run (log entry 10). -/
theorem moveInFlight_of_inRegion {c : Command} {m : HostMove} {a : Nat} {s : State} (hm : AccessTo m a)
    (h : inCommandRegion s.cfg c a = true) : moveInFlight c m s = .fault (.hostDutyBroken a) := by
  simp only [moveInFlight, moveAddr_of_accessTo hm, h, if_true]

/-- An access outside the regions is the same with the command in flight as without. -/
theorem moveInFlight_of_outside {c : Command} {m : HostMove} {a : Nat} {s : State} (hm : AccessTo m a)
    (h : inCommandRegion s.cfg c a = false) : moveInFlight c m s = hostMove m s := by
  simp [moveInFlight, moveAddr_of_accessTo hm, h]

/-- An access past the end of DMEM stops the run (log entry 11). -/
theorem hostMove_of_dmemSize_le {m : HostMove} {a : Nat} {s : State} (hm : AccessTo m a)
    (h : s.cfg.dmemSize ≤ a) : hostMove m s = .fault (.noSuchAddress a) := by
  simp only [hostMove, moveAddr_of_accessTo hm, if_neg (Nat.not_lt.2 h)]

/-- With a command in flight, an access of DMEM outside its regions happens. -/
theorem accessDone_of_outside {s : State} {c : Command} {m : HostMove} {a : Nat} {rest : List HostAction}
    (hp : s.port = some c) (hi : s.inbox = .meanwhile m :: rest) (hm : AccessTo m a)
    (hout : inCommandRegion s.cfg c a = false) (ha : a < s.cfg.dmemSize) : AccessDone s m rest := by
  have hstep : step s = .next (applyMove m (withInbox rest s)) := by
    rw [step_of_meanwhile hp hi, moveInFlight_of_outside (s := withInbox rest s) hm hout]
    exact hostMove_of_moveAddr_lt fun b hb => Option.some.inj ((moveAddr_of_accessTo hm).symm.trans hb) ▸ ha
  refine ⟨fun b hb => ?_, fun b v hb => ?_⟩
  · rw [hstep, hb]; rfl
  · rw [hstep, hb]; rfl

/-- Settles O42: whether the address lies in a region of the command decides. -/
theorem hostDutyInFlight : Obligations.HostDutyInFlight := by
  unfold Obligations.HostDutyInFlight
  intro s c a m rest hp hi hm
  refine ⟨fun hop => accessDone_of_outside hp hi hm (inCommandRegion_of_op_ne hop s.cfg a), fun n src dst hbits => ?_⟩
  obtain ⟨hop, rfl, rfl, rfl, hn, hsrc, hdst⟩ := hbits
  rw [← inCommandRegion_iff (decode_of_bits_of_lt hop hn hsrc hdst), Bool.not_eq_true]
  refine ⟨fun hin => ?_, accessDone_of_outside hp hi hm⟩
  rw [step_of_meanwhile hp hi]
  exact moveInFlight_of_inRegion hm hin

/-- Settles O44: with and without a command in flight, the access reaches `hostMove`. -/
theorem hostAccessOutsideDmemStops : Obligations.HostAccessOutsideDmemStops := by
  unfold Obligations.HostAccessOutsideDmemStops
  intro s a m rest ha hm h
  have hstop : hostMove m (withInbox rest s) = .fault (.noSuchAddress a) := hostMove_of_dmemSize_le hm ha
  rcases h with ⟨hp, hi | hi⟩ | ⟨c, hp, hi, hout⟩
  · rw [step_of_idle hp hi]; exact hstop
  · rw [step_of_idle hp hi]; exact hstop
  · have houtside : inCommandRegion (withInbox rest s).cfg c a = false := inCommandRegion_eq_false hout
    rw [step_of_meanwhile hp hi, moveInFlight_of_outside hm houtside, hstop]

/-! ## Everything that changes a byte of DMEM -/

/-- A host move changes only the byte it writes. -/
theorem dmemWrite_of_hostMove_ne {m : HostMove} {s t : State} {a : Nat} (h : hostMove m s = .next t)
    (hne : readByte t.dmem a ≠ readByte s.dmem a) : ∃ v, m = .dmemWrite a v := by
  obtain ⟨rfl, -⟩ := hostMove_eq_next h
  cases m with
  | statusRead => exact absurd rfl hne
  | dmemRead b => exact absurd rfl hne
  | dmemWrite b v =>
    by_cases hab : a = b
    · exact ⟨v, by rw [hab]⟩
    · exact absurd (readByte_writeByte_other s.dmem v hab) hne

/-- Between commands, only a host move changes a byte. -/
theorem dmemWrite_of_hostAction_ne {act : HostAction} {s t : State} {a : Nat} (h : hostAction act s = .next t)
    (hne : readByte t.dmem a ≠ readByte s.dmem a) :
    ∃ v, act = .move (.dmemWrite a v) ∨ act = .meanwhile (.dmemWrite a v) := by
  cases act with
  | issue c rd wr => cases h; exact absurd rfl hne
  | move m =>
    obtain ⟨v, rfl⟩ := dmemWrite_of_hostMove_ne h hne
    exact ⟨v, .inl rfl⟩
  | meanwhile m =>
    obtain ⟨v, rfl⟩ := dmemWrite_of_hostMove_ne h hne
    exact ⟨v, .inr rfl⟩
  | reset => cases h; exact absurd rfl hne
  | resetMeanwhile => cases h; exact absurd rfl hne

/-- A command that runs changes a byte only if it is REFLECT.BITS and answered `Done`, in its output region (R116). -/
theorem outputRegion_of_runCommand_dmem_ne {c : Command} {s t : State} {a : Nat} (h : runCommand c s = .next t)
    (hne : readByte t.dmem a ≠ readByte s.dmem a) : ∃ n src dst, decode s.cfg c = .ok (.reflectBits n src dst) ∧
      t.port = none ∧ (dst ≤ a ∧ a < dst + (n + 7) / 8) ∧ NotFaulted s ∧ t.responses = s.responses ++ [.done] := by
  rcases runCommand_cases c s with ⟨-, e⟩ | ⟨y, -, e⟩ | ⟨code, -, e⟩ | ⟨n, src, dst, b, hd, hf, -, hrun, e⟩ <;>
    rw [e] at h <;> cases h
  · exact absurd rfl hne
  · exact absurd rfl hne
  · exact absurd rfl hne
  · exact ⟨n, src, dst, hd, rfl, Decidable.byContradiction fun hout => hne (bitsRun_outside hrun hout), hf, rfl⟩

/-- Settles O45: which byte each kind of step can change. -/
theorem dmemChangesOnlyByHostOrBits : Obligations.DmemChangesOnlyByHostOrBits := by
  unfold Obligations.DmemChangesOnlyByHostOrBits
  intro s t a h hne
  rcases step_cases h with ⟨-, -, rfl⟩ | ⟨act, rest, hp, hi, ha⟩ | ⟨c, hp, hc⟩ | ⟨c, m, rest, -, hi, hm⟩ |
    ⟨c, rest, hp, hi, rfl⟩
  · exact absurd rfl hne
  · obtain ⟨v, rfl | rfl⟩ := dmemWrite_of_hostAction_ne ha hne
    · exact .inl ⟨v, rest, .inl ⟨hp, hi⟩⟩
    · exact .inl ⟨v, rest, .inr hi⟩
  · obtain ⟨n, src, dst, hd, hport, hin, hf, hdone⟩ := outputRegion_of_runCommand_dmem_ne hc hne
    exact .inr ⟨c, n, src, dst, hp, hd, hport, hin, .inl ⟨hf, hdone⟩⟩
  · obtain ⟨v, rfl⟩ := dmemWrite_of_hostMove_ne (moveInFlight_eq_next hm).1 hne
    exact .inl ⟨v, rest, .inr hi⟩
  · obtain ⟨n, src, dst, hd, hin⟩ := outputRegion_of_resetInFlight_dmem_ne (s := withInbox rest s) hne
    exact .inr ⟨c, n, src, dst, hp, hd, resetInFlight_port c _, hin,
      .inr ⟨resetInFlight_responses c _, rest, hi⟩⟩

end Sys2Proof.Machine
end
